-- ==== Sys2Proof/Word.lean ====
section
/-! DEFINITION. The two word types of the hardware (00_scope.md R6, R8): `u8` and `u16`, both unsigned. -/

namespace Sys2Proof

/-- `u8`: a memory byte, and the width of A, X, Y, SP and P (R6, R13). Bit 0 is the least significant. -/
abbrev Byte := BitVec 8

/-- `u16`: an address, and the width of PC (R6, R13, R35). -/
abbrev Addr := BitVec 16

end Sys2Proof
end

