-- ==== Sys2Proof/Config.lean ====
section
/-! DEFINITION. What is fixed for one machine and is not state: the closed enumerations of 45_extension_contract.md
R128, the descriptor table's row, and the named parameters of 00_scope.md R5. Their default values stand in
Machine/Params.lean and Decode.lean. -/

namespace Sys2Proof

/-- The two operations in scope (R126, R128); no third until a source defines one (R130). -/
inductive Operation where
  | lda
  | sta
deriving DecidableEq, Repr

/-- The ten addressing modes of the resolver (R85), Zero Page,Y and Implicit included, which no row of the default
descriptor table selects (R61). -/
inductive Mode where
  | immediate
  | absolute
  | absoluteX
  | absoluteY
  | zeroPage
  | zeroPageX
  | zeroPageY
  | indexedIndirectX
  | indirectIndexedY
  | implicit
deriving DecidableEq, Repr

/-- What an operation consumes: a read-style operand (a value) or a write-style one (an address) (R84, R126 (b)). -/
inductive OperandKind where
  | value
  | address
deriving DecidableEq, Repr

/-- The registers an operation may name as the one its flags are recomputed from (R126 (c)). -/
inductive DataReg where
  | a
  | x
  | y
deriving DecidableEq, Repr

/-- An Instruction Descriptor: what the opcode byte maps to (R31, R125). -/
structure Descriptor where
  op   : Operation
  mode : Mode
deriving DecidableEq, Repr

/-- One entry of the descriptor table ("adding instructions is a table entry", R125). -/
structure DescRow where
  opcode     : Byte
  descriptor : Descriptor
deriving DecidableEq, Repr

/-- The named parameters the spec gives a default for (R5). `Config.standard` of Machine/Params.lean holds the defaults;
a claim about another machine of the family quantifies over `Config`. -/
structure Config where
  /-- `DESC` (R31, R59, D1). -/
  descTable      : List DescRow
  /-- `Z_BIT`, the bit of P that holds Zero (R23, D2). -/
  zBit           : Fin 8
  /-- `N_BIT`, the bit of P that holds Negative (R23, D2). -/
  nBit           : Fin 8
  /-- `ZP_POINTER_WRAP` (R97, D8). -/
  zpPointerWrap  : Bool
  /-- `PRESENT_ON_STORE` (R38, D6). -/
  presentOnStore : Bool
deriving DecidableEq, Repr

/-- The OPEN launch registers `RESET_A`, `RESET_X`, `RESET_Y`, `RESET_SP`, `RESET_P` (R34, D3): any `u8` each. -/
structure LaunchRegs where
  a  : Byte
  x  : Byte
  y  : Byte
  sp : Byte
  p  : Byte
deriving DecidableEq, Repr

/-- `STACK_BASE`, the base of the "fixed stack region" (R22, D10). UNVERIFIED free value, safe: the spec gives no number and
no rule reads it (log 12). -/
opaque Config.stackBase : Addr

end Sys2Proof
end

