-- ==== Sys2Proof/Syntax.lean ====
section
/-! DEFINITION. The instructions, one constructor per row of spec/opcode_table.json (30_encoding.md R59), each with its
operand already assembled (R58), and the reasons the decoder rejects bytes. -/

namespace Sys2Proof

/-- The 15 instructions. `d` is the one operand byte of format F2, `w` the little-endian word of format F3 (R55, R58). -/
inductive Instr where
  /-- `LDA #$dd`, 0xA9 (R102). -/
  | ldaImmediate (d : Byte)
  /-- `LDA $dd`, 0xA5 (R103). -/
  | ldaZeroPage (d : Byte)
  /-- `LDA $dd,X`, 0xB5 (R104). -/
  | ldaZeroPageX (d : Byte)
  /-- `LDA $hhll`, 0xAD (R105). -/
  | ldaAbsolute (w : Addr)
  /-- `LDA $hhll,X`, 0xBD (R106). -/
  | ldaAbsoluteX (w : Addr)
  /-- `LDA $hhll,Y`, 0xB9 (R107). -/
  | ldaAbsoluteY (w : Addr)
  /-- `LDA ($dd,X)`, 0xA1 (R108). -/
  | ldaIndirectX (d : Byte)
  /-- `LDA ($dd),Y`, 0xB1 (R109). -/
  | ldaIndirectY (d : Byte)
  /-- `STA $dd`, 0x85 (R112). -/
  | staZeroPage (d : Byte)
  /-- `STA $dd,X`, 0x95 (R113). -/
  | staZeroPageX (d : Byte)
  /-- `STA $hhll`, 0x8D (R114). -/
  | staAbsolute (w : Addr)
  /-- `STA $hhll,X`, 0x9D (R115). -/
  | staAbsoluteX (w : Addr)
  /-- `STA $hhll,Y`, 0x99 (R116). -/
  | staAbsoluteY (w : Addr)
  /-- `STA ($dd,X)`, 0x81 (R117). -/
  | staIndirectX (d : Byte)
  /-- `STA ($dd),Y`, 0x91 (R118). -/
  | staIndirectY (d : Byte)
deriving DecidableEq, Repr

/-- Why a list of bytes is not the beginning of an instruction. Only `unknownOpcode` is a behaviour of the machine (R62); the
other two say that the list handed to the decoder is too short, which memory never is (R35, R40). -/
inductive DecodeError where
  /-- There is no byte 0. -/
  | noBytes
  /-- Byte 0 has no descriptor (R62); it has no length either (R57). -/
  | unknownOpcode (b : Byte)
  /-- Byte 0 has a descriptor and operand bytes are missing (R57). -/
  | missingOperand (b : Byte)
deriving DecidableEq, Repr

end Sys2Proof
end

