-- ==== Sys2Proof/Decode.lean ====
section
/-! DEFINITION. The descriptor table, the decoder (total, rejecting by name) and the encoder (30_encoding.md R55 to R62), with
the three-part declaration of each operation that decoding consults (R98, R126). -/

namespace Sys2Proof

/-! ### Byte order (R7, R41) -/

/-- `{h, l}`: the 16-bit value of two bytes, `h * 256 + l` (R7). -/
def wordOf (lo hi : Byte) : Addr := hi ++ lo

/-- Bits 7:0 of an address (R7), byte 1 of format F3 (R55). -/
def lowByte (w : Addr) : Byte := w.extractLsb' 0 8

/-- Bits 15:8 of an address (R7), byte 2 of format F3 (R55). -/
def highByte (w : Addr) : Byte := w.extractLsb' 8 8

/-! ### Modes and operations (R55, R84, R98, R126) -/

/-- How many operand bytes a mode consumes: the table of R85 with 0 for the implicit mode (R55, R57). -/
def Mode.operandBytes : Mode → Nat
  | .immediate        => 1
  | .absolute         => 2
  | .absoluteX        => 2
  | .absoluteY        => 2
  | .zeroPage         => 1
  | .zeroPageX        => 1
  | .zeroPageY        => 1
  | .indexedIndirectX => 1
  | .indirectIndexedY => 1
  | .implicit         => 0

/-- `ACCEPTS(op)`, the table of R98, declaration (a) of R126. -/
def Mode.acceptedBy : Mode → Operation → Bool
  | .immediate,        .lda => true
  | .immediate,        .sta => false
  | .absolute,         .lda => true
  | .absolute,         .sta => true
  | .absoluteX,        .lda => true
  | .absoluteX,        .sta => true
  | .absoluteY,        .lda => true
  | .absoluteY,        .sta => true
  | .zeroPage,         .lda => true
  | .zeroPage,         .sta => true
  | .zeroPageX,        .lda => true
  | .zeroPageX,        .sta => true
  | .zeroPageY,        .lda => true
  | .zeroPageY,        .sta => true
  | .indexedIndirectX, .lda => true
  | .indexedIndirectX, .sta => true
  | .indirectIndexedY, .lda => true
  | .indirectIndexedY, .sta => true
  | .implicit,         .lda => false
  | .implicit,         .sta => false

/-- `mode ∈ ACCEPTS(op)` (R98, R72). -/
def accepts (op : Operation) (mode : Mode) : Bool := mode.acceptedBy op

/-- `kind(op)`, declaration (b) of R126: LDA consumes a value, STA an address (R84). -/
def Operation.kind : Operation → OperandKind
  | .lda => .value
  | .sta => .address

/-- Declaration (c) of R126: the register Z and N are recomputed from, none for STA (R123). -/
def Operation.flagSource : Operation → Option DataReg
  | .lda => some .a
  | .sta => none

/-! ### Instructions as (operation, mode) pairs (R59) -/

/-- The operation column of R59. -/
def Instr.operation : Instr → Operation
  | .ldaImmediate _ => .lda
  | .ldaZeroPage _  => .lda
  | .ldaZeroPageX _ => .lda
  | .ldaAbsolute _  => .lda
  | .ldaAbsoluteX _ => .lda
  | .ldaAbsoluteY _ => .lda
  | .ldaIndirectX _ => .lda
  | .ldaIndirectY _ => .lda
  | .staZeroPage _  => .sta
  | .staZeroPageX _ => .sta
  | .staAbsolute _  => .sta
  | .staAbsoluteX _ => .sta
  | .staAbsoluteY _ => .sta
  | .staIndirectX _ => .sta
  | .staIndirectY _ => .sta

/-- The mode column of R59. -/
def Instr.mode : Instr → Mode
  | .ldaImmediate _ => .immediate
  | .ldaZeroPage _  => .zeroPage
  | .ldaZeroPageX _ => .zeroPageX
  | .ldaAbsolute _  => .absolute
  | .ldaAbsoluteX _ => .absoluteX
  | .ldaAbsoluteY _ => .absoluteY
  | .ldaIndirectX _ => .indexedIndirectX
  | .ldaIndirectY _ => .indirectIndexedY
  | .staZeroPage _  => .zeroPage
  | .staZeroPageX _ => .zeroPageX
  | .staAbsolute _  => .absolute
  | .staAbsoluteX _ => .absoluteX
  | .staAbsoluteY _ => .absoluteY
  | .staIndirectX _ => .indexedIndirectX
  | .staIndirectY _ => .indirectIndexedY

/-- The descriptor an instruction's opcode has in the default table. -/
def Instr.descriptor (i : Instr) : Descriptor := ⟨i.operation, i.mode⟩

/-- `length = 1 + operand_bytes(mode)` (R57). -/
def Instr.length (i : Instr) : Nat := 1 + i.mode.operandBytes

/-- The same instruction with the operand that bytes 1 and 2 assemble to (R58); format F2 does not use byte 2. -/
def Instr.withOperand (b1 b2 : Byte) : Instr → Instr
  | .ldaImmediate _ => .ldaImmediate b1
  | .ldaZeroPage _  => .ldaZeroPage b1
  | .ldaZeroPageX _ => .ldaZeroPageX b1
  | .ldaAbsolute _  => .ldaAbsolute (wordOf b1 b2)
  | .ldaAbsoluteX _ => .ldaAbsoluteX (wordOf b1 b2)
  | .ldaAbsoluteY _ => .ldaAbsoluteY (wordOf b1 b2)
  | .ldaIndirectX _ => .ldaIndirectX b1
  | .ldaIndirectY _ => .ldaIndirectY b1
  | .staZeroPage _  => .staZeroPage b1
  | .staZeroPageX _ => .staZeroPageX b1
  | .staAbsolute _  => .staAbsolute (wordOf b1 b2)
  | .staAbsoluteX _ => .staAbsoluteX (wordOf b1 b2)
  | .staAbsoluteY _ => .staAbsoluteY (wordOf b1 b2)
  | .staIndirectX _ => .staIndirectX b1
  | .staIndirectY _ => .staIndirectY b1

/-! ### The default descriptor table (R59) -/

/-- The 15 rows of R59: an opcode byte and the instruction it selects, its operand at zero. UNVERIFIED: the byte values and
the set of pairs are the spec's default (D1), which it marks as not in its source (log 1). -/
def opcodeTable : List (Byte × Instr) :=
  [ (0xA9, .ldaImmediate 0)
  , (0xA5, .ldaZeroPage 0)
  , (0xB5, .ldaZeroPageX 0)
  , (0xAD, .ldaAbsolute 0)
  , (0xBD, .ldaAbsoluteX 0)
  , (0xB9, .ldaAbsoluteY 0)
  , (0xA1, .ldaIndirectX 0)
  , (0xB1, .ldaIndirectY 0)
  , (0x85, .staZeroPage 0)
  , (0x95, .staZeroPageX 0)
  , (0x8D, .staAbsolute 0)
  , (0x9D, .staAbsoluteX 0)
  , (0x99, .staAbsoluteY 0)
  , (0x81, .staIndirectX 0)
  , (0x91, .staIndirectY 0) ]

/-- `DESC` as the configuration holds it: the rows of R59 as opcode and (operation, mode). -/
def standardDescTable : List DescRow := opcodeTable.map fun r => ⟨r.1, r.2.descriptor⟩

/-- `DESC(b)` of a configuration: the full-byte lookup of R56. -/
def Config.desc (c : Config) (b : Byte) : Option Descriptor :=
  (c.descTable.find? fun r => r.opcode == b).map (·.descriptor)

/-! ### The decoder -/

/-- The row of the default table for an opcode byte, all 8 bits compared (R56). -/
def opcodeRow (b : Byte) : Option Instr := (opcodeTable.find? fun r => r.1 == b).map (·.2)

/-- The instruction that byte 0 and the two bytes after it make, `none` for an unknown opcode (R56 to R58, R62). -/
def decodeWindow (b0 b1 b2 : Byte) : Option Instr := (opcodeRow b0).map (Instr.withOperand b1 b2)

/-- The decoder on any list of bytes: the instruction they begin with and the bytes after it, or the reason there is none.
Byte 0 is looked at before the length, since an unknown opcode has no length (R57). -/
def decode : List Byte → Except DecodeError (Instr × List Byte)
  | []         => .error .noBytes
  | b0 :: rest =>
    match decodeWindow b0 (rest.getD 0 0) (rest.getD 1 0) with
    | none   => .error (.unknownOpcode b0)
    | some i =>
      if rest.length < i.mode.operandBytes then .error (.missingOperand b0)
      else .ok (i, rest.drop i.mode.operandBytes)

/-! ### The encoder -/

/-- The bytes of an instruction, byte 0 first (R55, R59), from opcode_table.json's encodings. -/
def encode : Instr → List Byte
  | .ldaImmediate d => [0b10101001, d]
  | .ldaZeroPage d  => [0b10100101, d]
  | .ldaZeroPageX d => [0b10110101, d]
  | .ldaAbsolute w  => [0b10101101, lowByte w, highByte w]
  | .ldaAbsoluteX w => [0b10111101, lowByte w, highByte w]
  | .ldaAbsoluteY w => [0b10111001, lowByte w, highByte w]
  | .ldaIndirectX d => [0b10100001, d]
  | .ldaIndirectY d => [0b10110001, d]
  | .staZeroPage d  => [0b10000101, d]
  | .staZeroPageX d => [0b10010101, d]
  | .staAbsolute w  => [0b10001101, lowByte w, highByte w]
  | .staAbsoluteX w => [0b10011101, lowByte w, highByte w]
  | .staAbsoluteY w => [0b10011001, lowByte w, highByte w]
  | .staIndirectX d => [0b10000001, d]
  | .staIndirectY d => [0b10010001, d]

/-! ### A word of the opcode table -/

/-- Byte `k` of the `nbits` bits `w`, counted from the lowest address; 0 above `nbits`. -/
def tableByte (nbits w k : Nat) : Byte := BitVec.ofNat 8 (w % 2 ^ nbits / 2 ^ (8 * k))

/-- The longest instruction is three bytes (R55, format F3). -/
def tableBytes (nbits w : Nat) : List Byte := [tableByte nbits w 0, tableByte nbits w 1, tableByte nbits w 2]

/-- The instruction the decoder reads from the bits `w` of a row of spec/opcode_table.json, byte 0 lowest, every bit above
`nbits` 0. -/
def decodeTableWord (nbits w : Nat) : Option Instr :=
  match decode (tableBytes nbits w) with
  | .ok (i, _) => some i
  | .error _   => none

end Sys2Proof
end

