-- ==== Sys2Proof/Machine/Params.lean ====
section
/-! DEFINITION. The values this hardware gives the named parameters of 00_scope.md R5. -/

namespace Sys2Proof

/-- `ENTRY_POINT` (R20, D21). -/
def entryPoint : Addr := 0x8000

/-- `LOAD_BASE` (R45, R150, D21). -/
def loadBase : Addr := 0x8000

/-- The machine the fixed names (`step`, `exec`) run: every parameter at the default R5 gives it. UNVERIFIED: the spec marks
`DESC`, `Z_BIT` and `N_BIT` as not in its source, and `ZP_POINTER_WRAP` and `PRESENT_ON_STORE` as its decisions (log 1, 2, 6, 7). -/
def Config.standard : Config where
  descTable      := standardDescTable
  zBit           := 1
  nBit           := 7
  zpPointerWrap  := false
  presentOnStore := true

end Sys2Proof
end

