-- ==== Sys2Proof/Machine/State.lean ====
section
/-! DEFINITION. The complete state of the hardware (10_state.md R13), as plain data, the reasons a step can stop, and the state
right after reset. -/

namespace Sys2Proof.Machine

/-- `RUN` (R29). HALTED and FAULTED are terminal (R79). -/
inductive RunState where
  | running
  | halted
  | faulted
deriving DecidableEq, Repr

/-- The fault record of the hardware, `FAULT` when `RUN` is FAULTED (R30, R131). -/
inductive FaultRecord where
  /-- The opcode byte has no descriptor (R132). -/
  | unknownOpcode (byte : Byte)
  /-- The operation does not accept the descriptor's mode (R133). -/
  | unsupportedAddressingMode (op : Operation) (mode : Mode)
deriving DecidableEq, Repr

/-- `MEM`, the value plane (R27): the bytes that differ from what an unlisted address reads as, by rising address. -/
abbrev Memory := List Host.Cell

/-- `PRESENT`, the presence plane (R28): the addresses ever written, rising. -/
abbrev Presence := List Nat

/-- The complete state (R13). -/
structure State where
  /-- The accumulator (R15). -/
  a       : Byte
  /-- Index register X (R16). -/
  x       : Byte
  /-- Index register Y (R17). -/
  y       : Byte
  /-- The program counter (R20). -/
  pc      : Addr
  /-- The stack pointer: storage only (R22). -/
  sp      : Byte
  /-- The status register (R23). -/
  p       : Byte
  /-- The value plane of memory (R27). -/
  mem     : Memory
  /-- The presence plane of memory (R28). -/
  present : Presence
  /-- The run state (R29). -/
  run     : RunState
  /-- The fault record, none unless FAULTED (R30). -/
  fault   : Option FaultRecord
deriving DecidableEq, Repr

/-- Why no step is taken. The hardware's own faults are not here: entering one is a NEXT state whose `run` is FAULTED and whose
`fault` holds the record (R134). -/
inductive Fault where
  /-- Raised by `step` alone, when `RUN` is HALTED: no step is enabled (R79). Safe: the spec gives no successor. -/
  | haltedNoStep
  /-- Raised by `step` alone, when `RUN` is FAULTED: no step is enabled (R79). Safe: the spec gives no successor. -/
  | faultedNoStep
deriving DecidableEq, Repr

/-- Why an instruction has no meaning here. -/
inductive Refusal where
  /-- Raised by an arm of `exec` that has no meaning yet; no arm is one. Safe: the machine stops. -/
  | notModelled (mnemonic : String)
deriving DecidableEq, Repr

/-- The state right after reset with an empty image (R34, R149, R150): PC at the entry point, RUNNING, no fault record, no byte
written. A, X, Y, SP and P are OPEN in the spec; zero here is a DESIGN CHOICE, unsafe (log 3). `State.launch` of
Machine/Loader.lean takes them, and the launch memory, as arguments. -/
def State.reset : State where
  a       := 0
  x       := 0
  y       := 0
  pc      := entryPoint
  sp      := 0
  p       := 0
  mem     := []
  present := []
  run     := .running
  fault   := none

end Sys2Proof.Machine
end

