-- ==== Sys2Proof/Machine/Ops.lean ====
section
/-! DEFINITION. The named operations over memory and registers: the bus primitives of 20_memory.md R36 to R39, the fetch
primitives of 00_scope.md R10, the halt (R69) and the fault entry (R134). -/

namespace Sys2Proof.Machine

/-! ### The value plane (R27, R36, R38) -/

/-- What an address never written reads as: memory is "zero-initialized" (R27, R40). -/
def unlistedByte : Byte := 0

/-- The byte under key `k`. -/
def Memory.lookup : Memory → Nat → Byte
  | [],     _ => unlistedByte
  | c :: m, k => if c.1 = k then c.2 else Memory.lookup m k

/-- The cells under another key than `k`. -/
def Memory.erase (m : Memory) (k : Nat) : Memory := m.filter fun c => c.1 != k

/-- The cell `(k, v)` before the first cell of a greater key. -/
def Memory.insert : Memory → Nat → Byte → Memory
  | [],     k, v => [(k, v)]
  | c :: m, k, v => if k < c.1 then (k, v) :: c :: m else c :: Memory.insert m k v

/-- `MEM[a]`. -/
def Memory.read (m : Memory) (a : Addr) : Byte := m.lookup a.toNat

/-- `MEM[a] <- v`: a byte an unlisted address reads as is kept unlisted. -/
def Memory.write (m : Memory) (a : Addr) (v : Byte) : Memory :=
  if v = unlistedByte then m.erase a.toNat else (m.erase a.toNat).insert a.toNat v

/-- The keys rise from `lo`, lie in the address space (R35), and no cell holds what an unlisted address reads as. -/
def Memory.wfFrom : Nat → Memory → Bool
  | _,  []     => true
  | lo, c :: m => decide (lo ≤ c.1) && decide (c.1 < 65536) && (c.2 != unlistedByte) && Memory.wfFrom (c.1 + 1) m

/-- The canonical form of the value plane. -/
def Memory.wf (m : Memory) : Bool := Memory.wfFrom 0 m

/-! ### The presence plane (R28, R39) -/

/-- The key `k` before the first greater one. -/
def Presence.insert : Presence → Nat → Presence
  | [],     k => [k]
  | j :: q, k => if k < j then k :: j :: q else j :: Presence.insert q k

/-- `PRESENT[a]`. -/
def Presence.has (q : Presence) (a : Addr) : Bool := q.contains a.toNat

/-- `PRESENT[a] <- true`. -/
def Presence.mark (q : Presence) (a : Addr) : Presence := if q.has a then q else q.insert a.toNat

/-- The keys rise from `lo` and lie in the address space (R35). -/
def Presence.wfFrom : Nat → Presence → Bool
  | _,  []     => true
  | lo, j :: q => decide (lo ≤ j) && decide (j < 65536) && Presence.wfFrom (j + 1) q

/-- The canonical form of the presence plane. -/
def Presence.wf (q : Presence) : Bool := Presence.wfFrom 0 q

/-! ### The bus primitives (R36 to R39) -/

/-- `MemRead(addr, 1)`: never fails, does not consult presence (R36). -/
def State.readByte (s : State) (a : Addr) : Byte := s.mem.read a

/-- `MemRead(addr, 2)`: little-endian, the address wrapping at 65536 (R37). -/
def State.readWord (s : State) (a : Addr) : Addr := wordOf (s.readByte a) (s.readByte (a + 1))

/-- `Present(addr)` (R39). -/
def State.isPresent (s : State) (a : Addr) : Bool := s.present.has a

/-- `MemWrite(addr, 1, v)`, with its presence write under `PRESENT_ON_STORE` (R38). -/
def State.writeByte (c : Config) (s : State) (a : Addr) (v : Byte) : State :=
  { s with
    mem     := s.mem.write a v
    present := if c.presentOnStore then s.present.mark a else s.present }

/-- A byte the host stores before the run: present whatever the configuration (R150, R151). -/
def State.prestore (s : State) (a : Addr) (v : Byte) : State :=
  { s with mem := s.mem.write a v, present := s.present.mark a }

/-- Bytes the host stores before the run at consecutive addresses (R150). -/
def State.prestoreFrom : State → Addr → List Byte → State
  | s, _, []      => s
  | s, a, v :: vs => State.prestoreFrom (s.prestore a v) (a + 1) vs

/-! ### Registers and the fetch (R10, R20, R21) -/

/-- `PC <- (PC + n) mod 65536` (R21). -/
def State.advancePc (s : State) (n : Nat) : State := { s with pc := s.pc + BitVec.ofNat 16 n }

/-- `FetchByte()` (R10). -/
def State.fetchByte (s : State) : Byte × State := (s.readByte s.pc, s.advancePc 1)

/-- `FetchWord()`: low byte first (R10). -/
def State.fetchWord (s : State) : Addr × State :=
  let lo := s.fetchByte
  let hi := lo.2.fetchByte
  (wordOf lo.1 hi.1, hi.2)

/-- The register a flag declaration names (R126 (c)). -/
def State.dataReg (s : State) : DataReg → Byte
  | .a => s.a
  | .x => s.x
  | .y => s.y

/-- The instruction at PC, `none` where the opcode byte has no descriptor (R70, R71). It looks at the longest instruction's
three bytes; the ones an instruction does not have are ignored, and a read changes nothing (R36, R44, log 9). -/
def State.fetchInstr (s : State) : Option Instr :=
  decodeWindow (s.readByte s.pc) (s.readByte (s.pc + 1)) (s.readByte (s.pc + 2))

/-! ### The end of a run (R69, R134) -/

/-- `halt`: `RUN <- HALTED`, nothing else (R11, R69). -/
def State.halt (s : State) : State := { s with run := .halted }

/-- Fault entry: `RUN <- FAULTED`, `FAULT <- record`, nothing else, on the state before the step (R134). There is no return from
a fault (R141). -/
def State.takeFault (s : State) (r : FaultRecord) : State := { s with run := .faulted, fault := some r }

/-- The spec's numeric code of a fault (R30, R131, D13). -/
def FaultRecord.code : FaultRecord → Nat
  | .unknownOpcode _               => 1
  | .unsupportedAddressingMode _ _ => 2

/-- The code of the `FAULT` field, 0 for none (D13). -/
def State.faultCode (s : State) : Nat := (s.fault.map FaultRecord.code).getD 0

end Sys2Proof.Machine
end

