-- ==== Sys2Proof/Machine/Flags.lean ====
section
/-! DEFINITION. The one flag computation of the hardware (44_flag_update.md). -/

namespace Sys2Proof.Machine

/-- Bit `i` of a byte forced to 1 or to 0, never toggled (R120). -/
def forceBit (p : Byte) (i : Fin 8) (b : Bool) : Byte :=
  if b then p ||| (1#8 <<< i.val) else p &&& ~~~(1#8 <<< i.val)

/-- `SetZN(v)` on the status byte `p` (R119): Zero at `Z_BIT`, Negative at `N_BIT`, the other bits untouched. -/
def setZN (c : Config) (v p : Byte) : Byte := forceBit (forceBit p c.zBit (v == 0)) c.nBit v.msb

/-- The flag update of a step, from the value of the register an operation names (R75, R119). -/
def State.updateZN (c : Config) (s : State) (v : Byte) : State := { s with p := setZN c v s.p }

/-- The Zero flag (R24). -/
def State.zeroFlag (c : Config) (s : State) : Bool := s.p.getLsbD c.zBit

/-- The Negative flag (R25). -/
def State.negativeFlag (c : Config) (s : State) : Bool := s.p.getLsbD c.nBit

end Sys2Proof.Machine
end

