-- ==== Sys2Proof/Machine/Operands.lean ====
section
/-! DEFINITION. The addressing-mode resolver (41_addressing.md): every operand form, and every addition the hardware performs
beside PC + 1 (R86). -/

namespace Sys2Proof.Machine

/-- `zext_16(b)` (R7). -/
def zext (b : Byte) : Addr := b.setWidth 16

/-! ### The pointer fetch (R97) -/

/-- Where a pointer's high byte lies: the next address, or under `ZP_POINTER_WRAP` the next one in page 0 (R97, D8). -/
def pointerHighAddr (c : Config) (p : Byte) : Addr := if c.zpPointerWrap then zext (p + 1) else zext p + 1

/-- `PointerRead(p)` (R97). -/
def State.pointerRead (c : Config) (s : State) (p : Byte) : Addr :=
  wordOf (s.readByte (zext p)) (s.readByte (pointerHighAddr c p))

/-! ### Effective addresses, one per mode that has one (R88 to R95) -/

/-- Absolute (R88). -/
def eaAbsolute (w : Addr) : Addr := w

/-- Absolute,X (R89). -/
def State.eaAbsoluteX (s : State) (w : Addr) : Addr := w + zext s.x

/-- Absolute,Y (R90). -/
def State.eaAbsoluteY (s : State) (w : Addr) : Addr := w + zext s.y

/-- Zero Page (R91). -/
def eaZeroPage (d : Byte) : Addr := zext d

/-- Zero Page,X: the sum stays in page 0 (R92). -/
def State.eaZeroPageX (s : State) (d : Byte) : Addr := zext (d + s.x)

/-- Zero Page,Y: the sum stays in page 0 (R93). -/
def State.eaZeroPageY (s : State) (d : Byte) : Addr := zext (d + s.y)

/-- Indexed-Indirect (X): X is added to the pointer's location, within page 0 (R94). -/
def State.eaIndexedIndirectX (c : Config) (s : State) (d : Byte) : Addr := s.pointerRead c (d + s.x)

/-- Indirect-Indexed (Y): Y is added to the pointer (R95). -/
def State.eaIndirectIndexedY (c : Config) (s : State) (d : Byte) : Addr := s.pointerRead c d + zext s.y

/-! ### The resolver (R83) -/

/-- The addressing-mode result: transient, produced and consumed within a step (R32). -/
inductive Resolved where
  | nothing
  | value (v : Byte)
  | address (ea : Addr)
deriving DecidableEq, Repr

/-- What an effective address becomes for an operation that consumes a value or an address (R83, R84, D5). -/
def State.deliver (s : State) (k : OperandKind) (ea : Addr) : Resolved :=
  match k with
  | .address => .address ea
  | .value   => .value (s.readByte ea)

/-- `Resolve(mode, k)` (R83): entered with PC at the first operand byte, left with PC after the last. -/
def State.resolve (c : Config) (s : State) (mode : Mode) (k : OperandKind) : Resolved × State :=
  match mode with
  | .implicit         => (.nothing, s)
  | .immediate        => (.value s.fetchByte.1, s.fetchByte.2)
  | .absolute         => (s.deliver k (eaAbsolute s.fetchWord.1), s.fetchWord.2)
  | .absoluteX        => (s.deliver k (s.eaAbsoluteX s.fetchWord.1), s.fetchWord.2)
  | .absoluteY        => (s.deliver k (s.eaAbsoluteY s.fetchWord.1), s.fetchWord.2)
  | .zeroPage         => (s.deliver k (eaZeroPage s.fetchByte.1), s.fetchByte.2)
  | .zeroPageX        => (s.deliver k (s.eaZeroPageX s.fetchByte.1), s.fetchByte.2)
  | .zeroPageY        => (s.deliver k (s.eaZeroPageY s.fetchByte.1), s.fetchByte.2)
  | .indexedIndirectX => (s.deliver k (s.eaIndexedIndirectX c s.fetchByte.1), s.fetchByte.2)
  | .indirectIndexedY => (s.deliver k (s.eaIndirectIndexedY c s.fetchByte.1), s.fetchByte.2)

/-! ### The effective address of a decoded instruction -/

/-- The effective address of an instruction of the default table, none for Immediate (R87 to R95). -/
def effectiveAddr (i : Instr) (s : State) : Option Addr :=
  match i with
  | .ldaImmediate _ => none
  | .ldaZeroPage d  => some (eaZeroPage d)
  | .ldaZeroPageX d => some (s.eaZeroPageX d)
  | .ldaAbsolute w  => some (eaAbsolute w)
  | .ldaAbsoluteX w => some (s.eaAbsoluteX w)
  | .ldaAbsoluteY w => some (s.eaAbsoluteY w)
  | .ldaIndirectX d => some (s.eaIndexedIndirectX Config.standard d)
  | .ldaIndirectY d => some (s.eaIndirectIndexedY Config.standard d)
  | .staZeroPage d  => some (eaZeroPage d)
  | .staZeroPageX d => some (s.eaZeroPageX d)
  | .staAbsolute w  => some (eaAbsolute w)
  | .staAbsoluteX w => some (s.eaAbsoluteX w)
  | .staAbsoluteY w => some (s.eaAbsoluteY w)
  | .staIndirectX d => some (s.eaIndexedIndirectX Config.standard d)
  | .staIndirectY d => some (s.eaIndirectIndexedY Config.standard d)

/-- The address an instruction stores to: its effective address if it is a Store-Accumulator (R110), none otherwise (R100). -/
def storeAddr (i : Instr) (s : State) : Option Addr :=
  match i.operation with
  | .lda => none
  | .sta => effectiveAddr i s

end Sys2Proof.Machine
end

