-- ==== Sys2Proof/Machine/LoadAccumulator.lean ====
section
/-! DEFINITION. Load-Accumulator (42_load_accumulator.md): the operation and the meaning of each of its eight forms. -/

namespace Sys2Proof.Machine

/-- `Execute(LDA, value v)`'s register write: `A <- v` (R100). -/
def State.loadA (s : State) (v : Byte) : State := { s with a := v }

/-- A completed Load-Accumulator of `len` bytes: `A <- v`, `SetZN(A)` read after the write, PC past the instruction (R100, R75,
R76). -/
def State.loadAccumulator (s : State) (len : Nat) (v : Byte) : State :=
  let t := s.loadA v
  (t.updateZN Config.standard t.a).advancePc len

/-- `LDA #$dd` (R102). -/
def execLdaImmediate (d : Byte) (s : State) : Host.Outcome State Fault Refusal :=
  .next (s.loadAccumulator 2 d)

/-- `LDA $dd` (R103). -/
def execLdaZeroPage (d : Byte) (s : State) : Host.Outcome State Fault Refusal :=
  .next (s.loadAccumulator 2 (s.readByte (eaZeroPage d)))

/-- `LDA $dd,X` (R104). -/
def execLdaZeroPageX (d : Byte) (s : State) : Host.Outcome State Fault Refusal :=
  .next (s.loadAccumulator 2 (s.readByte (s.eaZeroPageX d)))

/-- `LDA $hhll` (R105). -/
def execLdaAbsolute (w : Addr) (s : State) : Host.Outcome State Fault Refusal :=
  .next (s.loadAccumulator 3 (s.readByte (eaAbsolute w)))

/-- `LDA $hhll,X` (R106). -/
def execLdaAbsoluteX (w : Addr) (s : State) : Host.Outcome State Fault Refusal :=
  .next (s.loadAccumulator 3 (s.readByte (s.eaAbsoluteX w)))

/-- `LDA $hhll,Y` (R107). -/
def execLdaAbsoluteY (w : Addr) (s : State) : Host.Outcome State Fault Refusal :=
  .next (s.loadAccumulator 3 (s.readByte (s.eaAbsoluteY w)))

/-- `LDA ($dd,X)` (R108). -/
def execLdaIndirectX (d : Byte) (s : State) : Host.Outcome State Fault Refusal :=
  .next (s.loadAccumulator 2 (s.readByte (s.eaIndexedIndirectX Config.standard d)))

/-- `LDA ($dd),Y` (R109). -/
def execLdaIndirectY (d : Byte) (s : State) : Host.Outcome State Fault Refusal :=
  .next (s.loadAccumulator 2 (s.readByte (s.eaIndirectIndexedY Config.standard d)))

end Sys2Proof.Machine
end

