-- ==== Sys2Proof/Machine/StoreAccumulator.lean ====
section
/-! DEFINITION. Store-Accumulator (43_store_accumulator.md): the operation and the meaning of each of its seven forms. -/

namespace Sys2Proof.Machine

/-- A completed Store-Accumulator of `len` bytes: `MemWrite(EA, 1, A)` and PC past the instruction; no flag (R110, R76). -/
def State.storeAccumulator (s : State) (len : Nat) (ea : Addr) : State :=
  (s.writeByte Config.standard ea s.a).advancePc len

/-- `STA $dd` (R112). -/
def execStaZeroPage (d : Byte) (s : State) : Host.Outcome State Fault Refusal :=
  .next (s.storeAccumulator 2 (eaZeroPage d))

/-- `STA $dd,X` (R113). -/
def execStaZeroPageX (d : Byte) (s : State) : Host.Outcome State Fault Refusal :=
  .next (s.storeAccumulator 2 (s.eaZeroPageX d))

/-- `STA $hhll` (R114). -/
def execStaAbsolute (w : Addr) (s : State) : Host.Outcome State Fault Refusal :=
  .next (s.storeAccumulator 3 (eaAbsolute w))

/-- `STA $hhll,X` (R115). -/
def execStaAbsoluteX (w : Addr) (s : State) : Host.Outcome State Fault Refusal :=
  .next (s.storeAccumulator 3 (s.eaAbsoluteX w))

/-- `STA $hhll,Y` (R116). -/
def execStaAbsoluteY (w : Addr) (s : State) : Host.Outcome State Fault Refusal :=
  .next (s.storeAccumulator 3 (s.eaAbsoluteY w))

/-- `STA ($dd,X)` (R117). -/
def execStaIndirectX (d : Byte) (s : State) : Host.Outcome State Fault Refusal :=
  .next (s.storeAccumulator 2 (s.eaIndexedIndirectX Config.standard d))

/-- `STA ($dd),Y` (R118). -/
def execStaIndirectY (d : Byte) (s : State) : Host.Outcome State Fault Refusal :=
  .next (s.storeAccumulator 2 (s.eaIndirectIndexedY Config.standard d))

end Sys2Proof.Machine
end

