-- ==== Sys2Proof/Machine/Dispatch.lean ====
section
/-! DEFINITION. One arm per instruction (30_encoding.md R59, 45_extension_contract.md R128). -/

namespace Sys2Proof.Machine

def exec (i : Instr) (s : State) : Host.Outcome State Fault Refusal :=
  match i with
  | .ldaImmediate d => Sys2Proof.Machine.execLdaImmediate d s
  | .ldaZeroPage d => Sys2Proof.Machine.execLdaZeroPage d s
  | .ldaZeroPageX d => Sys2Proof.Machine.execLdaZeroPageX d s
  | .ldaAbsolute w => Sys2Proof.Machine.execLdaAbsolute w s
  | .ldaAbsoluteX w => Sys2Proof.Machine.execLdaAbsoluteX w s
  | .ldaAbsoluteY w => Sys2Proof.Machine.execLdaAbsoluteY w s
  | .ldaIndirectX d => Sys2Proof.Machine.execLdaIndirectX d s
  | .ldaIndirectY d => Sys2Proof.Machine.execLdaIndirectY d s
  | .staZeroPage d => Sys2Proof.Machine.execStaZeroPage d s
  | .staZeroPageX d => Sys2Proof.Machine.execStaZeroPageX d s
  | .staAbsolute w => Sys2Proof.Machine.execStaAbsolute w s
  | .staAbsoluteX w => Sys2Proof.Machine.execStaAbsoluteX w s
  | .staAbsoluteY w => Sys2Proof.Machine.execStaAbsoluteY w s
  | .staIndirectX d => Sys2Proof.Machine.execStaIndirectX d s
  | .staIndirectY d => Sys2Proof.Machine.execStaIndirectY d s

end Sys2Proof.Machine
end

