-- ==== Sys2Proof/Machine/Step.lean ====
section
/-! DEFINITION. The step of the one agent (40_engine.md R68) and the placing of an instruction where it fetches. -/

namespace Sys2Proof.Machine

/-- `Step()` over the default descriptor table (R68), its tests in the order of R140: no step unless RUNNING (R79); absence at PC
halts (R69); an opcode without a descriptor faults (R71, R132); a mode the operation does not accept faults (R72, R133;
never with this table); otherwise the instruction executes (R73 to R76). -/
def step (s : State) : Host.Outcome State Fault Refusal :=
  match s.run with
  | .halted  => .fault .haltedNoStep
  | .faulted => .fault .faultedNoStep
  | .running =>
    if s.isPresent s.pc then
      match s.fetchInstr with
      | none   => .next (s.takeFault (.unknownOpcode (s.readByte s.pc)))
      | some i =>
        if accepts i.operation i.mode then exec i s
        else .next (s.takeFault (.unsupportedAddressingMode i.operation i.mode))
    else .next s.halt

/-- `s` with the three bytes of a table word pre-stored at PC (R151) and the machine RUNNING with no fault record, so that the
very next step runs that instruction (log 14). -/
def State.withFetchWord (s : State) (nbits w : Nat) : State :=
  { s.prestoreFrom s.pc (tableBytes nbits w) with run := .running, fault := none }

end Sys2Proof.Machine
end

