-- ==== Sys2Proof/Machine/Engine.lean ====
section
/-! DEFINITION. The execution engine over any configuration, written from the pseudocode of 40_engine.md R68 with its fetches,
its resolver and its operation dispatch: what a descriptor table other than the default, `ZP_POINTER_WRAP` or
`PRESENT_ON_STORE` at its other value, or other flag positions do (45_extension_contract.md R130). `step` is this engine at
`Config.standard`; an obligation says so. -/

namespace Sys2Proof.Machine

/-- `Execute(op, r)` (R74, R127): LDA writes A with a value (R100), STA writes a byte of memory at an address (R110); `none` when
the result is not of the kind the operation consumes, which an accepted mode never gives (R98). -/
def State.execute (c : Config) (s : State) (op : Operation) (r : Resolved) : Option State :=
  match op, r with
  | .lda, .value v    => some { s with a := v }
  | .lda, .address _  => none
  | .lda, .nothing    => none
  | .sta, .address ea => some (s.writeByte c ea s.a)
  | .sta, .value _    => none
  | .sta, .nothing    => none

/-- Step 6: the flags the operation declares, recomputed from the register it names (R75, R126). -/
def State.applyFlags (c : Config) (s : State) (op : Operation) : State :=
  match op.flagSource with
  | some reg => s.updateZN c (s.dataReg reg)
  | none     => s

/-- Steps 2 to 7 for a descriptor (R68): the mode check before any operand byte is consumed (R72), the opcode byte consumed, the
operand resolved, the operation executed, its flags applied; a fault leaves the state as before the step (R134). -/
def State.dispatch (c : Config) (s : State) (d : Descriptor) : State :=
  if accepts d.op d.mode then
    let r := (s.advancePc 1).resolve c d.mode d.op.kind
    match r.2.execute c d.op r.1 with
    | some t => t.applyFlags c d.op
    | none   => s.takeFault (.unsupportedAddressingMode d.op d.mode)
  else s.takeFault (.unsupportedAddressingMode d.op d.mode)

/-- `Step()` of R68 over the configuration `c`. -/
def stepWith (c : Config) (s : State) : Host.Outcome State Fault Refusal :=
  match s.run with
  | .halted  => .fault .haltedNoStep
  | .faulted => .fault .faultedNoStep
  | .running =>
    if s.isPresent s.pc then
      match c.desc (s.readByte s.pc) with
      | none   => .next (s.takeFault (.unknownOpcode (s.readByte s.pc)))
      | some d => .next (s.dispatch c d)
    else .next s.halt

end Sys2Proof.Machine
end

