-- ==== Sys2Proof/Machine/Bus.lean ====
section
/-! DEFINITION. The transactions of one step at the bus between the engine and memory (20_memory.md R52, R53). The state change is
`stepWith`'s; this is the list of requests it makes, in the order of R53. -/

namespace Sys2Proof.Machine

/-- A request of the bus (R52); a word read is two reads (R37). -/
inductive BusRequest where
  | presence (a : Addr)
  | read (a : Addr)
  | write (a : Addr) (v : Byte)
deriving DecidableEq, Repr

/-- The reads of the operand bytes, in rising order (R53, 3). -/
def State.operandReads (s : State) (mode : Mode) : List BusRequest :=
  (List.range mode.operandBytes).map fun k => .read (s.pc + 1 + BitVec.ofNat 16 k)

/-- The reads of a pointer at `p`, low byte then high byte (R53, 4; R97). -/
def pointerReads (c : Config) (p : Byte) : List BusRequest := [.read (zext p), .read (pointerHighAddr c p)]

/-- The pointer reads of a mode: the two indirect modes have them (R53, 4). -/
def State.modePointerReads (c : Config) (s : State) (mode : Mode) : List BusRequest :=
  let d := s.readByte (s.pc + 1)
  match mode with
  | .immediate        => []
  | .absolute         => []
  | .absoluteX        => []
  | .absoluteY        => []
  | .zeroPage         => []
  | .zeroPageX        => []
  | .zeroPageY        => []
  | .indexedIndirectX => pointerReads c (d + s.x)
  | .indirectIndexedY => pointerReads c d
  | .implicit         => []

/-- The data access: for LDA the read at EA in every mode but Immediate, for STA the write (R53, 5). -/
def State.dataAccess (c : Config) (s : State) (d : Descriptor) : List BusRequest :=
  match d.op, ((s.advancePc 1).resolve c d.mode .address).1 with
  | .lda, .address ea => [.read ea]
  | .lda, .value _    => []
  | .lda, .nothing    => []
  | .sta, .address ea => [.write ea s.a]
  | .sta, .value _    => []
  | .sta, .nothing    => []

/-- The bus transactions of the step taken at `s` (R53); none when no step is enabled (R79), the presence query alone at a halt
(R69), no operand read at a fault (R132, R133). -/
def busTrace (c : Config) (s : State) : List BusRequest :=
  match s.run with
  | .halted  => []
  | .faulted => []
  | .running =>
    if s.isPresent s.pc then
      [.presence s.pc, .read s.pc] ++
        match c.desc (s.readByte s.pc) with
        | none   => []
        | some d =>
          if accepts d.op d.mode then s.operandReads d.mode ++ s.modePointerReads c d.mode ++ s.dataAccess c d else []
    else [.presence s.pc]

/-- What a request does to the value plane (R36, R38, R39). -/
def BusRequest.apply (m : Memory) : BusRequest → Memory
  | .presence _ => m
  | .read _     => m
  | .write a v  => m.write a v

end Sys2Proof.Machine
end

