-- ==== Sys2Proof/WellFormed.lean ====
section
/-! DEFINITION. What must hold of the data a model is given: of a descriptor, an instruction, a configuration, an image. An
operand of `Instr` is a byte or an address of its exact width and every value of it is legal (30_encoding.md R58), so an
instruction is well-formed exactly when its operation accepts its mode (R98); no term of `Instr` fails it (Laws/Decode.lean). -/

namespace Sys2Proof

/-- The operation accepts the mode (R98); a descriptor that fails this faults when it is decoded (R133). -/
def Descriptor.wf (d : Descriptor) : Bool := accepts d.op d.mode

/-- An instruction of the default table is an accepted pair (R98, R72). -/
def Instr.wf (i : Instr) : Bool := i.descriptor.wf

/-- No opcode byte has two rows: the table is a mapping (R31). -/
def uniqueOpcodes (t : List DescRow) : Bool := decide ((t.map (·.opcode)).Nodup)

/-- `Z_BIT ≠ N_BIT` (R23; both in 0..7 by their type), and the descriptor table is a mapping (R31). -/
def Config.wf (c : Config) : Bool := c.zBit != c.nBit && uniqueOpcodes c.descTable

/-- `0 ≤ IMAGE_LEN ≤ 65536 - LOAD_BASE = 32768` (R150, D11). -/
def imageFits (image : List Byte) : Bool := decide (image.length ≤ 32768)

end Sys2Proof
end

