-- ==== Sys2Proof/Machine/Loader.lean ====
section
/-! DEFINITION. Launch (70_reset_and_hazards.md R149 to R153) and what the host reads when a run is over (10_state.md R33). -/

namespace Sys2Proof.Machine

/-- `MEM0` and `PRESENT0` the general launch admits: canonical, and every absent address reads 0 (R151). -/
def launchMemoryOk (mem : Memory) (present : Presence) : Bool :=
  mem.wf && present.wf && mem.all fun c => present.contains c.1

/-- The launch state for the OPEN registers and memory (R149, R151). -/
def State.launch (r : LaunchRegs) (mem : Memory) (present : Presence) : State where
  a       := r.a
  x       := r.x
  y       := r.y
  pc      := entryPoint
  sp      := r.sp
  p       := r.p
  mem     := mem
  present := present
  run     := .running
  fault   := none

/-- The standard loader (R150): the image from `LOAD_BASE` up, present; 0 and absent elsewhere, the byte before it included
(R152). An image over 32768 bytes has no launch state (U11). -/
def standardLaunch (r : LaunchRegs) (image : List Byte) : Option State :=
  if imageFits image then some ((State.launch r [] []).prestoreFrom loadBase image) else none

/-- What the core exposes to the caller (R33). -/
structure Snapshot where
  a     : Byte
  x     : Byte
  y     : Byte
  pc    : Addr
  sp    : Byte
  p     : Byte
  run   : RunState
  fault : Option FaultRecord
deriving DecidableEq, Repr

/-- The snapshot, exposed on termination only, with `FAULT` when FAULTED (R33, R154). -/
def State.snapshot (s : State) : Option Snapshot :=
  match s.run with
  | .running => none
  | .halted  => some ⟨s.a, s.x, s.y, s.pc, s.sp, s.p, .halted, none⟩
  | .faulted => some ⟨s.a, s.x, s.y, s.pc, s.sp, s.p, .faulted, s.fault⟩

/-- Memory as the host may read it, after termination only (R33, D23). -/
def State.inspectByte (s : State) (a : Addr) : Option Byte :=
  match s.run with
  | .running => none
  | .halted  => some (s.readByte a)
  | .faulted => some (s.readByte a)

end Sys2Proof.Machine
end

