-- ==== Sys2Proof/Safety.lean ====
section
/-! DEFINITION. What counts as a safe run, and the invariant of the machine's states, in the terms the statements use. -/

namespace Sys2Proof.Machine

/-- "No fault recorded": `RUN ≠ FAULTED` (R136). -/
def State.noFault (s : State) : Bool := s.run != .faulted

/-- A run is over (R155). -/
def State.over (s : State) : Bool := s.run != .running

/-- The two memory planes are canonical, and an absent address reads 0 (R151, kept by every store that marks, R38). -/
def State.memoryInv (s : State) : Bool := launchMemoryOk s.mem s.present

/-- The two memory planes are canonical: what every store keeps, with `PRESENT_ON_STORE` or without (R38). -/
def State.planesWf (s : State) : Bool := s.mem.wf && s.present.wf

/-- `RUN` and `FAULT` agree with each other and with what ended the run: no record unless FAULTED (R30); a halted PC is at an
absent address (R155); an unknown opcode is the present byte at PC (R135) and has no descriptor (R132); an unsupported
mode is one the operation of the byte's descriptor does not accept (R133). -/
def State.endInv (c : Config) (s : State) : Bool :=
  match s.run, s.fault with
  | .running, none   => true
  | .running, some _ => false
  | .halted,  none   => !s.isPresent s.pc
  | .halted,  some _ => false
  | .faulted, none   => false
  | .faulted, some (.unknownOpcode b) => s.isPresent s.pc && (s.readByte s.pc == b) && (c.desc b == none)
  | .faulted, some (.unsupportedAddressingMode op mode) =>
    s.isPresent s.pc && (c.desc (s.readByte s.pc) == some ⟨op, mode⟩) && !accepts op mode

/-- The invariant of every state a run passes through, for the configuration `c`. -/
def State.Inv (c : Config) (s : State) : Bool := s.memoryInv && s.endInv c

/-- The state after `k` steps, none if a step before was not enabled. -/
def runState (k : Nat) (s : State) : Option State :=
  match Host.Core.run Sys2Proof.core k s with
  | .next t    => some t
  | .fault _   => none
  | .refused _ => none

end Sys2Proof.Machine
end

