-- ==== Sys2Proof/Certificates/Slice0/Obligations.lean ====
section
/-! DEFINITION. The statements for the provers. The vocabulary below (`Sys2Proof.Claims`) writes the spec's pseudocode in plain
arithmetic on numbers, apart from the definitions the machine runs, so that a statement compares the two. -/

namespace Sys2Proof.Claims

open Sys2Proof.Machine

/-- The address `n mod 65536` (R7, R35). -/
def addrOf (n : Nat) : Addr := BitVec.ofNat 16 n

/-- `{hi, lo}` as a number (R7). -/
def wordNat (lo hi : Byte) : Nat := hi.toNat * 256 + lo.toNat

/-- `MemRead((pc0 + k) mod 65536, 1)`: the byte `k` places after the opcode of the next instruction. -/
def operandByte (s : State) (k : Nat) : Byte := s.readByte (addrOf (s.pc.toNat + k))

/-- The two operand bytes of an absolute-family instruction as a number (R58). -/
def operandWord (s : State) : Nat := wordNat (operandByte s 1) (operandByte s 2)

/-- The pointer stored at zero-page location `p`, for the two values of `ZP_POINTER_WRAP` (R97). -/
def pointerNat (c : Config) (s : State) (p : Nat) : Nat :=
  wordNat (s.readByte (addrOf p)) (s.readByte (addrOf (if c.zpPointerWrap then (p + 1) % 256 else p + 1)))

/-- The machine is RUNNING and the byte at PC is present and is `opcode`. -/
def AtOpcode (s : State) (opcode : Byte) : Prop :=
  s.run = .running ∧ s.isPresent s.pc = true ∧ s.readByte s.pc = opcode

/-- `t` is `s` after a Load-Accumulator of value `v` and length `len` (R100): A, Z and N (R119), PC modulo 65536, nothing else. -/
def Loads (c : Config) (s t : State) (len : Nat) (v : Byte) : Prop :=
  t.a = v ∧
  t.zeroFlag c = decide (v.toNat = 0) ∧ t.negativeFlag c = decide (128 ≤ v.toNat) ∧
  (∀ i, i < 8 → i ≠ c.zBit.val → i ≠ c.nBit.val → t.p.getLsbD i = s.p.getLsbD i) ∧
  t.pc.toNat = (s.pc.toNat + len) % 65536 ∧
  t.x = s.x ∧ t.y = s.y ∧ t.sp = s.sp ∧
  (∀ b, t.readByte b = s.readByte b) ∧ (∀ b, t.isPresent b = s.isPresent b) ∧
  t.run = s.run ∧ t.fault = s.fault

/-- `t` is `s` after a Store-Accumulator at `ea` of length `len` (R110): the byte and the presence bit at `ea`, PC modulo 65536,
nothing else. -/
def Stores (s t : State) (len : Nat) (ea : Addr) : Prop :=
  t.readByte ea = s.a ∧ t.isPresent ea = true ∧
  (∀ b, b ≠ ea → t.readByte b = s.readByte b) ∧ (∀ b, b ≠ ea → t.isPresent b = s.isPresent b) ∧
  t.pc.toNat = (s.pc.toNat + len) % 65536 ∧
  t.a = s.a ∧ t.x = s.x ∧ t.y = s.y ∧ t.sp = s.sp ∧ t.p = s.p ∧
  t.run = s.run ∧ t.fault = s.fault

/-- The step at `s` completes a Load-Accumulator of value `v`. -/
def StepLoads (s : State) (len : Nat) (v : Byte) : Prop :=
  ∃ t, step s = .next t ∧ Loads Config.standard s t len v

/-- The step at `s` completes a Store-Accumulator at the address `ea mod 65536`. -/
def StepStores (s : State) (len ea : Nat) : Prop :=
  ∃ t, step s = .next t ∧ Stores s t len (addrOf ea)

/-- `exec i` at `s` completes a Load-Accumulator of value `v`. -/
def ExecLoads (i : Instr) (s : State) (len : Nat) (v : Byte) : Prop :=
  ∃ t, exec i s = .next t ∧ Loads Config.standard s t len v

/-- `exec i` at `s` completes a Store-Accumulator at the address `ea mod 65536`. -/
def ExecStores (i : Instr) (s : State) (len ea : Nat) : Prop :=
  ∃ t, exec i s = .next t ∧ Stores s t len (addrOf ea)

/-- The resolver, entered with PC at the first operand byte, forms the effective address `ea mod 65536`: it hands over the
address to an operation that consumes one, the byte there to one that consumes a value, and leaves PC `n` further (R83, R84). -/
def ResolvesTo (c : Config) (s : State) (mode : Mode) (n ea : Nat) : Prop :=
  s.resolve c mode .address = (.address (addrOf ea), { s with pc := addrOf (s.pc.toNat + n) }) ∧
  s.resolve c mode .value = (.value (s.readByte (addrOf ea)), { s with pc := addrOf (s.pc.toNat + n) })

/-- The operand byte at PC and the operand word at PC, as the resolver finds them. -/
def byteAtPc (s : State) : Nat := (s.readByte s.pc).toNat

def wordAtPc (s : State) : Nat := wordNat (s.readByte s.pc) (s.readByte (addrOf (s.pc.toNat + 1)))

/-- The 15 opcode bytes of R59. -/
def knownOpcodes : List Byte :=
  [0xA9, 0xA5, 0xB5, 0xAD, 0xBD, 0xB9, 0xA1, 0xB1, 0x85, 0x95, 0x8D, 0x9D, 0x99, 0x81, 0x91]

/-- `t` is `s` after the fault of the present opcode byte at PC, which has no descriptor: the one fault the default table can
raise (R132, R133). -/
def UnknownOpcodeEntry (s t : State) : Prop :=
  s.isPresent s.pc = true ∧ s.readByte s.pc ∉ knownOpcodes ∧ t = s.takeFault (.unknownOpcode (s.readByte s.pc))

/-- The outcome with its next state changed by `f`. -/
def onNext (f : State → State) : Host.Outcome State Fault Refusal → Host.Outcome State Fault Refusal
  | .next t    => .next (f t)
  | .fault r   => .fault r
  | .refused r => .refused r

/-- Two outcomes are the same but for what `f` overwrites. -/
def SameBut (f : State → State) (o o' : Host.Outcome State Fault Refusal) : Prop := onNext f o = onNext f o'

end Sys2Proof.Claims

open Sys2Proof Sys2Proof.Machine Sys2Proof.Claims

/-! ### Encoding (30_encoding.md) -/

/-- Decoding an encoded instruction gives it back, with the bytes after it, at every value of every operand (R55 to R59). -/
def Obligations.DecodeOfEncodeIsTheInstruction : Prop :=
  ∀ (i : Instr) (rest : List Byte), i.wf = true → decode (encode i ++ rest) = .ok (i, rest)

/-- Bytes that decode are the encoding of what they decode to: no byte string is read as another's instruction (R56, R62). -/
def Obligations.EncodeOfDecodedIsTheBytes : Prop :=
  ∀ (bs rest : List Byte) (i : Instr), decode bs = .ok (i, rest) → i.wf = true ∧ encode i ++ rest = bs

/-- Five words written out from opcode_table.json's encodings decode to the instruction they stand for (R59, R65). -/
def Obligations.WrittenOutWordsDecode : Prop :=
  decode [0b10101001, 0b10101010] = .ok (.ldaImmediate 0xAA, []) ∧
  decode [0b10001101, 0b00000000, 0b01000000] = .ok (.staAbsolute 0x4000, []) ∧
  decode [0b10100001, 0b00100000] = .ok (.ldaIndirectX 0x20, []) ∧
  decode [0b10111101, 0b11110000, 0b01000000] = .ok (.ldaAbsoluteX 0x40F0, []) ∧
  decode [0b10010001, 0b00110000] = .ok (.staIndirectY 0x30, [])

/-- An opcode byte is unknown exactly when it is none of the 15 of R59, whatever follows it (R62). The 15 byte values are the
spec's default for a parameter (D1, log 1). -/
def Obligations.OtherOpcodesAreUnknown : Prop :=
  (∀ (b : Byte) (rest : List Byte), decode (b :: rest) = .error (.unknownOpcode b) ↔ b ∉ knownOpcodes) ∧
  ((List.range 256).filter fun n => decide (BitVec.ofNat 8 n ∉ knownOpcodes)).length = 241

/-! ### Load-Accumulator, one statement per rule (42_load_accumulator.md); the opcode bytes are the default table's (D1, log 1) -/

/-- R102, from the bytes in memory. -/
def Obligations.LdaImmediateStep : Prop :=
  ∀ s, AtOpcode s 0xA9 → StepLoads s 2 (operandByte s 1)

/-- R103. -/
def Obligations.LdaZeroPageStep : Prop :=
  ∀ s, AtOpcode s 0xA5 → StepLoads s 2 (s.readByte (addrOf (operandByte s 1).toNat))

/-- R104. -/
def Obligations.LdaZeroPageXStep : Prop :=
  ∀ s, AtOpcode s 0xB5 → StepLoads s 2 (s.readByte (addrOf (((operandByte s 1).toNat + s.x.toNat) % 256)))

/-- R105. -/
def Obligations.LdaAbsoluteStep : Prop :=
  ∀ s, AtOpcode s 0xAD → StepLoads s 3 (s.readByte (addrOf (operandWord s)))

/-- R106. -/
def Obligations.LdaAbsoluteXStep : Prop :=
  ∀ s, AtOpcode s 0xBD → StepLoads s 3 (s.readByte (addrOf ((operandWord s + s.x.toNat) % 65536)))

/-- R107. -/
def Obligations.LdaAbsoluteYStep : Prop :=
  ∀ s, AtOpcode s 0xB9 → StepLoads s 3 (s.readByte (addrOf ((operandWord s + s.y.toNat) % 65536)))

/-- R108. -/
def Obligations.LdaIndirectXStep : Prop :=
  ∀ s, AtOpcode s 0xA1 →
    StepLoads s 2 (s.readByte (addrOf (pointerNat Config.standard s (((operandByte s 1).toNat + s.x.toNat) % 256))))

/-- R109. -/
def Obligations.LdaIndirectYStep : Prop :=
  ∀ s, AtOpcode s 0xB1 →
    StepLoads s 2 (s.readByte (addrOf ((pointerNat Config.standard s (operandByte s 1).toNat + s.y.toNat) % 65536)))

/-! ### Store-Accumulator, one statement per rule (43_store_accumulator.md); the opcode bytes are the default table's (D1, log 1) -/

/-- R112. -/
def Obligations.StaZeroPageStep : Prop :=
  ∀ s, AtOpcode s 0x85 → StepStores s 2 (operandByte s 1).toNat

/-- R113. -/
def Obligations.StaZeroPageXStep : Prop :=
  ∀ s, AtOpcode s 0x95 → StepStores s 2 (((operandByte s 1).toNat + s.x.toNat) % 256)

/-- R114. -/
def Obligations.StaAbsoluteStep : Prop :=
  ∀ s, AtOpcode s 0x8D → StepStores s 3 (operandWord s)

/-- R115. -/
def Obligations.StaAbsoluteXStep : Prop :=
  ∀ s, AtOpcode s 0x9D → StepStores s 3 ((operandWord s + s.x.toNat) % 65536)

/-- R116. -/
def Obligations.StaAbsoluteYStep : Prop :=
  ∀ s, AtOpcode s 0x99 → StepStores s 3 ((operandWord s + s.y.toNat) % 65536)

/-- R117. -/
def Obligations.StaIndirectXStep : Prop :=
  ∀ s, AtOpcode s 0x81 → StepStores s 2 (pointerNat Config.standard s (((operandByte s 1).toNat + s.x.toNat) % 256))

/-- R118. -/
def Obligations.StaIndirectYStep : Prop :=
  ∀ s, AtOpcode s 0x91 → StepStores s 2 ((pointerNat Config.standard s (operandByte s 1).toNat + s.y.toNat) % 65536)

/-! ### Completion of every instruction, and what each leaves alone -/

/-- Each of the eight Load-Accumulator forms completes at every state and operand: A, Z and N from the value, PC by its length,
nothing else (R100). -/
def Obligations.EveryLoadFormCompletes : Prop :=
  ∀ (s : State) (d : Byte) (w : Addr),
    ExecLoads (.ldaImmediate d) s 2 d ∧
    ExecLoads (.ldaZeroPage d) s 2 (s.readByte (addrOf d.toNat)) ∧
    ExecLoads (.ldaZeroPageX d) s 2 (s.readByte (addrOf ((d.toNat + s.x.toNat) % 256))) ∧
    ExecLoads (.ldaAbsolute w) s 3 (s.readByte w) ∧
    ExecLoads (.ldaAbsoluteX w) s 3 (s.readByte (addrOf ((w.toNat + s.x.toNat) % 65536))) ∧
    ExecLoads (.ldaAbsoluteY w) s 3 (s.readByte (addrOf ((w.toNat + s.y.toNat) % 65536))) ∧
    ExecLoads (.ldaIndirectX d) s 2 (s.readByte (addrOf (pointerNat Config.standard s ((d.toNat + s.x.toNat) % 256)))) ∧
    ExecLoads (.ldaIndirectY d) s 2
      (s.readByte (addrOf ((pointerNat Config.standard s d.toNat + s.y.toNat) % 65536)))

/-- Each of the seven Store-Accumulator forms completes at every state and operand: one byte and its presence bit, PC by its
length, nothing else, no flag (R110). -/
def Obligations.EveryStoreFormCompletes : Prop :=
  ∀ (s : State) (d : Byte) (w : Addr),
    ExecStores (.staZeroPage d) s 2 d.toNat ∧
    ExecStores (.staZeroPageX d) s 2 ((d.toNat + s.x.toNat) % 256) ∧
    ExecStores (.staAbsolute w) s 3 w.toNat ∧
    ExecStores (.staAbsoluteX w) s 3 ((w.toNat + s.x.toNat) % 65536) ∧
    ExecStores (.staAbsoluteY w) s 3 ((w.toNat + s.y.toNat) % 65536) ∧
    ExecStores (.staIndirectX d) s 2 (pointerNat Config.standard s ((d.toNat + s.x.toNat) % 256)) ∧
    ExecStores (.staIndirectY d) s 2 ((pointerNat Config.standard s d.toNat + s.y.toNat) % 65536)

/-- The frame of every instruction, at the address `storeAddr` computes for it: the "written by" column of R19. -/
def Obligations.EveryInstructionsFrame : Prop :=
  ∀ (i : Instr) (s t : State), exec i s = .next t →
    t.x = s.x ∧ t.y = s.y ∧ t.sp = s.sp ∧ t.run = s.run ∧ t.fault = s.fault ∧
    (∀ n, n < 8 → n ≠ Config.standard.zBit.val → n ≠ Config.standard.nBit.val → t.p.getLsbD n = s.p.getLsbD n) ∧
    (i.operation = .sta → t.a = s.a ∧ t.p = s.p) ∧
    (i.operation = .lda → storeAddr i s = none) ∧
    (storeAddr i s = none → ∀ b, t.readByte b = s.readByte b ∧ t.isPresent b = s.isPresent b) ∧
    (∀ ea, storeAddr i s = some ea → ∀ b, b ≠ ea → t.readByte b = s.readByte b ∧ t.isPresent b = s.isPresent b)

/-- The document's properties of Load-Accumulator: its flags for every A, never both (the spec's inference from R100), and the round
trip with a store to every address. -/
def Obligations.LoadFlagsAndRoundTrip : Prop :=
  (∀ (i : Instr) (s t : State), i.operation = .lda → exec i s = .next t →
    (t.zeroFlag Config.standard = true ↔ t.a = 0) ∧ (t.negativeFlag Config.standard = true ↔ 128 ≤ t.a.toNat) ∧
    (t.zeroFlag Config.standard && t.negativeFlag Config.standard) = false) ∧
  (∀ (s : State) (v : Byte) (w : Addr), ∃ t u,
    exec (.ldaImmediate v) s = .next t ∧ exec (.staAbsolute w) t = .next u ∧ u.readByte w = v)

/-- A store is seen by the very next opcode fetch, its presence bit included: the next step runs the byte stored (R50), which is
the fault of R132 and R134 if it has no descriptor and R102's load if it is 0xA9. That the store marks is the spec's decision D6
(log 6); that the fault leaves PC is its decision D4 (log 10), and that it is a next state the model's choice (log 8); the opcode
bytes are the default table's (D1, log 1). -/
def Obligations.NextFetchSeesTheStore : Prop :=
  ∀ (i : Instr) (s t : State), s.run = .running → exec i s = .next t → storeAddr i s = some t.pc →
    t.isPresent t.pc = true ∧ t.readByte t.pc = s.a ∧
    (s.a ∉ knownOpcodes → step t = .next { t with run := .faulted, fault := some (.unknownOpcode s.a) }) ∧
    (s.a = 0xA9 → StepLoads t 2 (operandByte t 1))

/-! ### Flags (44_flag_update.md), for every configuration with `Z_BIT ≠ N_BIT` -/

/-- `SetZN` writes its two bits from the value and leaves the other six, and equals the rule's single expression (R119). -/
def Obligations.SetZNWritesTwoBits : Prop :=
  ∀ (c : Config) (v p : Byte), c.zBit ≠ c.nBit →
    (∀ n : Fin 8, (setZN c v p).getLsbD n =
      if n = c.zBit then decide (v.toNat = 0) else if n = c.nBit then decide (128 ≤ v.toNat) else p.getLsbD n) ∧
    setZN c v p =
      (p &&& ~~~((1#8 <<< c.zBit.val) ||| (1#8 <<< c.nBit.val))) ||| ((if v = 0 then 1#8 else 0#8) <<< c.zBit.val) |||
        ((v >>> 7) <<< c.nBit.val)

/-- `SetZN` forces its bits, whatever they were (R120), and twice is once, which the spec's R121 marks as its own inference from
R120. -/
def Obligations.SetZNForcesAndIsIdempotent : Prop :=
  ∀ (c : Config) (v p q : Byte),
    (setZN c v p).getLsbD c.zBit = (setZN c v q).getLsbD c.zBit ∧
    (setZN c v p).getLsbD c.nBit = (setZN c v q).getLsbD c.nBit ∧
    setZN c v (setZN c v p) = setZN c v p

/-- The outcome table of `SetZN`, Z and N never together; both together can be launch values, by the spec's own inference. -/
def Obligations.SetZNOutcomeTable : Prop :=
  (∀ (c : Config) (v p : Byte), c.zBit ≠ c.nBit →
    (v.toNat = 0 → (setZN c v p).getLsbD c.zBit = true ∧ (setZN c v p).getLsbD c.nBit = false) ∧
    (1 ≤ v.toNat ∧ v.toNat ≤ 127 → (setZN c v p).getLsbD c.zBit = false ∧ (setZN c v p).getLsbD c.nBit = false) ∧
    (128 ≤ v.toNat → (setZN c v p).getLsbD c.zBit = false ∧ (setZN c v p).getLsbD c.nBit = true)) ∧
  (∀ (c : Config) (mem : Memory) (q : Presence), ∃ r,
    (State.launch r mem q).zeroFlag c = true ∧ (State.launch r mem q).negativeFlag c = true)

/-! ### Memory (20_memory.md) -/

/-- A word read is little-endian and wraps at 65536; it does not wrap within the zero page (R37). -/
def Obligations.ReadWordIsLittleEndianAndWraps : Prop :=
  (∀ (s : State) (a : Addr), (s.readWord a).toNat = wordNat (s.readByte a) (s.readByte (addrOf ((a.toNat + 1) % 65536)))) ∧
  (∀ s : State, (s.readWord 0xFFFF).toNat = wordNat (s.readByte 0xFFFF) (s.readByte 0x0000)) ∧
  (∀ s : State, (s.readWord 0x00FF).toNat = wordNat (s.readByte 0x00FF) (s.readByte 0x0100))

/-- A write stores the byte, sets the presence bit exactly under `PRESENT_ON_STORE`, and changes nothing else. That
a store marks is the spec's decision D6 (log 6). -/
def Obligations.WriteByteStoresAndMarks : Prop :=
  ∀ (c : Config) (s : State) (a : Addr) (v : Byte),
    (s.writeByte c a v).readByte a = v ∧
    (∀ b, b ≠ a → (s.writeByte c a v).readByte b = s.readByte b ∧ (s.writeByte c a v).isPresent b = s.isPresent b) ∧
    (c.presentOnStore = true → (s.writeByte c a v).isPresent a = true) ∧
    (c.presentOnStore = false → (s.writeByte c a v).isPresent a = s.isPresent a) ∧
    (s.writeByte c a v) = { s with mem := (s.writeByte c a v).mem, present := (s.writeByte c a v).present }

/-- An absent address reads 0, and only absence at PC halts: an instruction at a present PC completes whatever the presence of
every other address it reads. The spec's decision D7 (log 5). -/
def Obligations.AbsentReadsZeroAndNeverHalts : Prop :=
  (∀ (s : State) (a : Addr), s.memoryInv = true → s.isPresent a = false → s.readByte a = 0) ∧
  (∀ s : State, s.run = .running → s.isPresent s.pc = true → s.readByte s.pc ∈ knownOpcodes →
    ∃ t, step s = .next t ∧ t.run = .running ∧ t.fault = s.fault)

/-- Two memories in canonical form that read alike, or two presence planes, are equal data. -/
def Obligations.CanonicalPlanesAreEqualData : Prop :=
  (∀ m m' : Memory, m.wf = true → m'.wf = true → (∀ a, m.read a = m'.read a) → m = m') ∧
  (∀ q q' : Presence, q.wf = true → q'.wf = true → (∀ a, q.has a = q'.has a) → q = q')

/-! ### The resolver (41_addressing.md), for every configuration -/

/-- Immediate hands over the operand byte as a value, to LDA only; Implicit consumes and hands over nothing, no operation
accepts it and no default descriptor selects it (R87, R96). Which modes an operation accepts is the spec's decision D9; that an
absent operand byte is the value 0 is its decision D7 (log 5). -/
def Obligations.ImmediateAndImplicitResolve : Prop :=
  (∀ (c : Config) (s : State) (k : OperandKind),
    s.resolve c .immediate k = (.value (s.readByte s.pc), { s with pc := addrOf (s.pc.toNat + 1) }) ∧
    s.resolve c .implicit k = (.nothing, s)) ∧
  accepts .lda .immediate = true ∧ accepts .sta .immediate = false ∧
  accepts .lda .implicit = false ∧ accepts .sta .implicit = false ∧
  (∀ s : State, s.memoryInv = true → s.isPresent s.pc = false →
    (s.resolve Config.standard .immediate .value).1 = .value 0) ∧
  (∀ (b : Byte) (d : Descriptor), Config.standard.desc b = some d → d.mode ≠ .implicit)

/-- The absolute family adds modulo 65536 (R88, R89, R90). -/
def Obligations.AbsoluteFamilyResolves : Prop :=
  ∀ (c : Config) (s : State),
    ResolvesTo c s .absolute 2 (wordAtPc s) ∧
    ResolvesTo c s .absoluteX 2 ((wordAtPc s + s.x.toNat) % 65536) ∧
    ResolvesTo c s .absoluteY 2 ((wordAtPc s + s.y.toNat) % 65536)

/-- The zero-page family stays in page 0; no default descriptor selects Zero Page,Y (R91, R92, R93). -/
def Obligations.ZeroPageFamilyResolves : Prop :=
  (∀ (c : Config) (s : State),
    ResolvesTo c s .zeroPage 1 (byteAtPc s) ∧
    ResolvesTo c s .zeroPageX 1 ((byteAtPc s + s.x.toNat) % 256) ∧
    ResolvesTo c s .zeroPageY 1 ((byteAtPc s + s.y.toNat) % 256)) ∧
  (∀ (b : Byte) (d : Descriptor), Config.standard.desc b = some d → d.mode ≠ .zeroPageY)

/-- X is added to the pointer's location within page 0, Y to the pointer modulo 65536 (R94, R95). -/
def Obligations.IndirectModesResolve : Prop :=
  ∀ (c : Config) (s : State),
    ResolvesTo c s .indexedIndirectX 1 (pointerNat c s ((byteAtPc s + s.x.toNat) % 256)) ∧
    ResolvesTo c s .indirectIndexedY 1 ((pointerNat c s (byteAtPc s) + s.y.toNat) % 65536)

/-- The pointer read under each value of `ZP_POINTER_WRAP`: the two agree below 0xFF, and at 0xFF the high byte comes from
0x0100 by default and from 0x0000 otherwise. The default is the spec's decision D8 (log 7). -/
def Obligations.PointerReadUnderBothReadings : Prop :=
  ∀ (c : Config) (s : State) (p : Byte),
    (s.pointerRead c p).toNat = pointerNat c s p.toNat ∧
    (∀ c' : Config, p.toNat ≤ 0xFE → s.pointerRead c p = s.pointerRead c' p) ∧
    (c.zpPointerWrap = false → (s.pointerRead c 0xFF).toNat = wordNat (s.readByte 0x00FF) (s.readByte 0x0100)) ∧
    (c.zpPointerWrap = true → (s.pointerRead c 0xFF).toNat = wordNat (s.readByte 0x00FF) (s.readByte 0x0000))

/-- The accepted modes are those of the rule's table, which are exactly the modes that resolve to the kind of operand the
operation consumes. The table is the spec's decision D9. -/
def Obligations.AcceptedModesAreTheResolvableOnes : Prop :=
  (∀ m, accepts .lda m = true ↔ m ≠ .implicit) ∧
  (∀ m, accepts .sta m = true ↔ m ≠ .implicit ∧ m ≠ .immediate) ∧
  (∀ (c : Config) (s : State) (m : Mode),
    (accepts .lda m = true ↔ ∃ v, (s.resolve c m .value).1 = .value v) ∧
    (accepts .sta m = true ↔ ∃ ea, (s.resolve c m .address).1 = .address ea))

/-! ### The engine (40_engine.md) and the two faults (60_exceptions.md) -/

/-- Absence at PC halts and changes nothing but `RUN`; that PC stays is the spec's decision D24 (log 8). -/
def Obligations.AbsentPcHalts : Prop :=
  ∀ s : State, s.run = .running → s.isPresent s.pc = false → step s = .next { s with run := .halted }

/-- An opcode byte outside the table faults, with the byte recorded and every register as before (R132). That PC is among
them is the spec's decision D4, conflict C1 (log 10); that the fault is a next state is the model's choice (log 8). -/
def Obligations.UnknownOpcodeFaults : Prop :=
  ∀ (s : State) (b : Byte), AtOpcode s b → b ∉ knownOpcodes →
    step s = .next { s with run := .faulted, fault := some (.unknownOpcode b) }

/-- A descriptor whose operation does not accept its mode faults when it is decoded, under any configuration; no descriptor of
the default table is one. That the check is made at decode is the spec's decision D4 (log 10). -/
def Obligations.UnsupportedModeFaults : Prop :=
  (∀ (c : Config) (s : State) (op : Operation) (mode : Mode), s.run = .running → s.isPresent s.pc = true →
    c.desc (s.readByte s.pc) = some ⟨op, mode⟩ →
    (op = .sta ∧ mode = .immediate) ∨ (op = .sta ∧ mode = .implicit) ∨ (op = .lda ∧ mode = .implicit) →
    stepWith c s = .next { s with run := .faulted, fault := some (.unsupportedAddressingMode op mode) }) ∧
  (∀ (b : Byte) (d : Descriptor), Config.standard.desc b = some d →
    ¬ ((d.op = .sta ∧ d.mode = .immediate) ∨ (d.op = .sta ∧ d.mode = .implicit) ∨ (d.op = .lda ∧ d.mode = .implicit)))

/-- Whatever faults, under any configuration, writes `RUN` and `FAULT` and nothing else, PC included: the spec's decision D4
(log 10). -/
def Obligations.FaultEntryWritesTwoThings : Prop :=
  ∀ (c : Config) (s t : State), stepWith c s = .next t → t.run = .faulted →
    ∃ r, t = { s with run := .faulted, fault := some r } ∧
      (r = .unknownOpcode (s.readByte s.pc) ∨
        ∃ d, c.desc (s.readByte s.pc) = some d ∧ r = .unsupportedAddressingMode d.op d.mode)

/-- From a RUNNING state there is exactly one next state; from a HALTED or FAULTED one there is none, under any configuration
(R78; that the two are terminal is the spec's decision D19, log 8). -/
def Obligations.StepIsEnabledExactlyWhenRunning : Prop :=
  ∀ (c : Config) (s : State),
    (s.run = .running → (∃ t, step s = .next t) ∧ ∃ t, stepWith c s = .next t) ∧
    (s.run ≠ .running → (∀ t, step s ≠ .next t) ∧ ∀ t, stepWith c s ≠ .next t)

/-- The tests of a step in their fixed order, the first that applies ending the step, under any configuration (R140). That a
halt leaves PC is the spec's decision D24 (log 8), that a fault leaves PC and everything else its decision D4 (log 10), and that
both are next states the model's choice (log 8). -/
def Obligations.TestsOfAStepInOrder : Prop :=
  ∀ (c : Config) (s : State), s.run = .running →
    (s.isPresent s.pc = false → stepWith c s = .next { s with run := .halted }) ∧
    (s.isPresent s.pc = true → c.desc (s.readByte s.pc) = none →
      stepWith c s = .next { s with run := .faulted, fault := some (.unknownOpcode (s.readByte s.pc)) }) ∧
    (∀ d, s.isPresent s.pc = true → c.desc (s.readByte s.pc) = some d → accepts d.op d.mode = false →
      stepWith c s = .next { s with run := .faulted, fault := some (.unsupportedAddressingMode d.op d.mode) }) ∧
    (∀ d, s.isPresent s.pc = true → c.desc (s.readByte s.pc) = some d → accepts d.op d.mode = true →
      ∃ t, stepWith c s = .next t ∧ t.run = .running ∧ t.fault = s.fault)

/-- PC after a step is `pc0` plus the instruction's length modulo 65536, and `pc0` after a halt or a fault, under any
configuration (R21). -/
def Obligations.PcAdvancesByTheLength : Prop :=
  ∀ (c : Config) (s t : State), stepWith c s = .next t →
    (t.run = .running → ∃ d, c.desc (s.readByte s.pc) = some d ∧
      t.pc.toNat = (s.pc.toNat + (1 + d.mode.operandBytes)) % 65536) ∧
    (t.run ≠ .running → t.pc = s.pc)

/-- Zero Page,Y, which no default descriptor selects, does what its mode rule says when a table selects it (R93, R130). -/
def Obligations.ZeroPageYUnderAnotherTable : Prop :=
  ∀ (c : Config) (s : State), c.zBit ≠ c.nBit → c.presentOnStore = true → s.run = .running → s.isPresent s.pc = true →
    (c.desc (s.readByte s.pc) = some ⟨.lda, .zeroPageY⟩ →
      ∃ t, stepWith c s = .next t ∧
        Loads c s t 2 (s.readByte (addrOf (((operandByte s 1).toNat + s.y.toNat) % 256)))) ∧
    (c.desc (s.readByte s.pc) = some ⟨.sta, .zeroPageY⟩ →
      ∃ t, stepWith c s = .next t ∧ Stores s t 2 (addrOf (((operandByte s 1).toNat + s.y.toNat) % 256)))

/-- When the bytes at PC decode, the step is `exec` of what they decode to, which itself moves PC past the instruction (R68). -/
def Obligations.StepRunsTheDecodedInstruction : Prop :=
  ∀ (s : State) (i : Instr) (rest : List Byte), s.run = .running → s.isPresent s.pc = true →
    decode [operandByte s 0, operandByte s 1, operandByte s 2] = .ok (i, rest) →
    i.wf = true ∧ step s = exec i s ∧
    ∃ t, exec i s = .next t ∧ t.pc.toNat = (s.pc.toNat + i.length) % 65536

/-- When the bytes at PC are an instruction's encoding, the step runs that instruction, at every value of its operand and every
PC, the wrap at 0xFFFF included (R55, R68). -/
def Obligations.StepRunsTheEncodedInstruction : Prop :=
  ∀ (s : State) (i : Instr), s.run = .running → s.isPresent s.pc = true →
    (∀ (k : Nat) (h : k < (encode i).length), operandByte s k = (encode i)[k]) → step s = exec i s

/-- The machine of the fixed names is the engine of R68's pseudocode at the default parameters: decoding to `Instr` and running
one arm equals fetching byte by byte, resolving, executing and applying flags. -/
def Obligations.StepIsTheEngineAtTheDefaults : Prop :=
  ∀ s : State, step s = stepWith Config.standard s

/-! ### Whole-machine rules and invariants -/

/-- What a step changes, and by what: the "written by" column of R19, row by row. X, Y, SP and the reserved bits of P are written
by nothing; A and P by an LDA (R123); the two memory planes by an STA, at its own address; PC by an executed instruction, by its
length; RUN by the halt test or a fault; FAULT by a fault. That the halt and the fault write nothing else rests on the spec's
decisions D24 (log 8) and D4 (log 10). -/
def Obligations.StateChangesOnlyAsTabulated : Prop :=
  ∀ s t : State, step s = .next t →
    t.x = s.x ∧ t.y = s.y ∧ t.sp = s.sp ∧
    (∀ n, n < 8 → n ≠ Config.standard.zBit.val → n ≠ Config.standard.nBit.val → t.p.getLsbD n = s.p.getLsbD n) ∧
    (t.a ≠ s.a ∨ t.p ≠ s.p → ∃ i, s.fetchInstr = some i ∧ i.operation = .lda ∧ t = s.loadAccumulator i.length t.a) ∧
    (∀ b, t.readByte b ≠ s.readByte b ∨ t.isPresent b ≠ s.isPresent b →
      ∃ i, s.fetchInstr = some i ∧ i.operation = .sta ∧ storeAddr i s = some b ∧ t = s.storeAccumulator i.length b) ∧
    (t.pc ≠ s.pc → ∃ i, s.isPresent s.pc = true ∧ s.fetchInstr = some i ∧
      t.pc.toNat = (s.pc.toNat + i.length) % 65536 ∧ t.run = .running) ∧
    (t.run ≠ s.run → (s.isPresent s.pc = false ∧ t = s.halt) ∨ UnknownOpcodeEntry s t) ∧
    (t.fault ≠ s.fault → UnknownOpcodeEntry s t)

/-- The reserved bits of P keep their launch value for the whole run (R26). -/
def Obligations.ReservedBitsKeptForTheWholeRun : Prop :=
  ∀ (k : Nat) (s t : State), runState k s = some t →
    ∀ n, n < 8 → n ≠ Config.standard.zBit.val → n ≠ Config.standard.nBit.val → t.p.getLsbD n = s.p.getLsbD n

/-- X, Y and SP keep their launch values for the whole run, and a presence bit once true stays true (R16, R17, R22, R28). -/
def Obligations.IndexesAndStackPointerConstantOnARun : Prop :=
  ∀ (k : Nat) (s t : State), runState k s = some t →
    t.x = s.x ∧ t.y = s.y ∧ t.sp = s.sp ∧ ∀ a, s.isPresent a = true → t.isPresent a = true

/-- No step reads SP or P, and presence is read at PC only: states that differ there alone step alike but for what differed
(R19, R22, R28). -/
def Obligations.UnreadStateDoesNotMatter : Prop :=
  ∀ s : State,
    (∀ v, step { s with sp := v } = onNext (fun t => { t with sp := v }) (step s)) ∧
    (∀ v, SameBut (fun t => { t with p := 0 }) (step { s with p := v }) (step s)) ∧
    (∀ q : Presence, q.has s.pc = s.present.has s.pc →
      SameBut (fun t => { t with present := [] }) (step { s with present := q }) (step s))

/-- The invariant holds at reset, and at every launch state the host may build (R149 to R151). -/
def Obligations.InvariantHoldsAtLaunch : Prop :=
  State.reset.Inv Config.standard = true ∧
  ∀ (c : Config) (r : LaunchRegs) (mem : Memory) (q : Presence),
    launchMemoryOk mem q = true → (State.launch r mem q).Inv c = true

/-- Every step keeps the invariant: both planes canonical, absent addresses reading 0, and `RUN`, `FAULT`, PC and memory agreeing
on how a run ended. -/
def Obligations.EveryStepKeepsTheInvariant : Prop :=
  ∀ s t : State, s.Inv Config.standard = true → step s = .next t → t.Inv Config.standard = true

/-- The same of the engine: the whole invariant under every configuration with `PRESENT_ON_STORE` (another table, other flag bits,
the other pointer reading), and, whatever `PRESENT_ON_STORE` is, all of it but absent addresses reading 0, which a store to an
absent address ends when it marks nothing. -/
def Obligations.EveryEngineStepKeepsTheInvariant : Prop :=
  ∀ (c : Config) (s t : State), stepWith c s = .next t →
    (c.presentOnStore = true → s.Inv c = true → t.Inv c = true) ∧
    (s.planesWf = true → s.endInv c = true → t.planesWf = true ∧ t.endInv c = true)

/-! ### Launch and the host (70_reset_and_hazards.md) -/

/-- The launch state: PC at the entry point, RUNNING, no fault, and any value in A, X, Y, SP, P, any launch memory (R149). That
`State.reset` is one with both planes empty, the empty image, is the model's choice (log 4); its register zeros are another
(log 3), and no clause rests on them. -/
def Obligations.LaunchState : Prop :=
  (∀ (r : LaunchRegs) (mem : Memory) (q : Presence),
    (State.launch r mem q).pc = 0x8000 ∧ (State.launch r mem q).run = .running ∧ (State.launch r mem q).fault = none ∧
    (State.launch r mem q).a = r.a ∧ (State.launch r mem q).x = r.x ∧ (State.launch r mem q).y = r.y ∧
    (State.launch r mem q).sp = r.sp ∧ (State.launch r mem q).p = r.p ∧
    (State.launch r mem q).mem = mem ∧ (State.launch r mem q).present = q) ∧
  (∃ r, State.reset = State.launch r [] [])

/-- The standard loader: the image from 0x8000 up and present, 0 and absent elsewhere, the registers as given; it takes exactly
the images of at most 32768 bytes, the spec's decision D11 (log 4). -/
def Obligations.StandardLoaderPlacesTheImage : Prop :=
  ∀ (r : LaunchRegs) (image : List Byte),
    (image.length ≤ 32768 ↔ (standardLaunch r image).isSome = true) ∧
    ∀ s, standardLaunch r image = some s →
      (∀ (i : Nat) (h : i < image.length),
        s.readByte (addrOf (0x8000 + i)) = image[i] ∧ s.isPresent (addrOf (0x8000 + i)) = true) ∧
      (∀ a : Addr, a.toNat < 0x8000 ∨ 0x8000 + image.length ≤ a.toNat → s.readByte a = 0 ∧ s.isPresent a = false) ∧
      s = { State.launch r [] [] with mem := s.mem, present := s.present } ∧ s.memoryInv = true

/-- The host sees nothing while RUNNING; after termination the six registers, `RUN`, the fault record when FAULTED, and memory,
the last the spec's decision D23 (log 15). -/
def Obligations.SnapshotOnTerminationOnly : Prop :=
  ∀ s : State,
    (s.run = .running → s.snapshot = none ∧ ∀ a, s.inspectByte a = none) ∧
    (s.run = .halted → s.snapshot = some ⟨s.a, s.x, s.y, s.pc, s.sp, s.p, .halted, none⟩ ∧
      ∀ a, s.inspectByte a = some (s.readByte a)) ∧
    (s.run = .faulted → s.snapshot = some ⟨s.a, s.x, s.y, s.pc, s.sp, s.p, .faulted, s.fault⟩ ∧
      ∀ a, s.inspectByte a = some (s.readByte a))

/-! ### The bus (20_memory.md R52, R53) -/

/-- Replaying a step's bus transactions over memory gives the memory after the step, under any configuration. -/
def Obligations.BusTransactionsAccountForMemory : Prop :=
  ∀ (c : Config) (s t : State), stepWith c s = .next t → (busTrace c s).foldl BusRequest.apply s.mem = t.mem

/-- One presence query, at PC and first; at most one write, and it is the last transaction (R53, R154). -/
def Obligations.BusTransactionsOfOneStep : Prop :=
  ∀ (c : Config) (s : State), s.run = .running →
    (∃ rest, busTrace c s = .presence s.pc :: rest ∧ ∀ a, BusRequest.presence a ∉ rest) ∧
    (∀ (before after : List BusRequest) (a : Addr) (v : Byte),
      busTrace c s = before ++ BusRequest.write a v :: after → after = [] ∧ v = s.a)
end

