-- ==== Sys2Proof/Laws/Decode.lean ====
section
/-! SUPPORT. Small lemmas about the byte order, the descriptor table, the decoder and the encoder. -/

namespace Sys2Proof

/-! ### Byte order -/

theorem wordOf_toNat (lo hi : Byte) : (wordOf lo hi).toNat = hi.toNat * 256 + lo.toNat := by
  rw [wordOf, BitVec.toNat_append, ← Nat.shiftLeft_add_eq_or_of_lt lo.isLt, Nat.shiftLeft_eq]

theorem lowByte_toNat (w : Addr) : (lowByte w).toNat = w.toNat % 256 := by
  simp [lowByte, BitVec.extractLsb'_toNat]

theorem highByte_toNat (w : Addr) : (highByte w).toNat = w.toNat / 256 := by
  have := w.isLt
  simp [highByte, BitVec.extractLsb'_toNat, Nat.shiftRight_eq_div_pow]
  omega

@[simp] theorem wordOf_low_high (w : Addr) : wordOf (lowByte w) (highByte w) = w := by
  apply BitVec.eq_of_toNat_eq
  rw [wordOf_toNat, lowByte_toNat, highByte_toNat]
  omega

@[simp] theorem lowByte_wordOf (lo hi : Byte) : lowByte (wordOf lo hi) = lo := by
  apply BitVec.eq_of_toNat_eq
  rw [lowByte_toNat, wordOf_toNat]
  have := lo.isLt
  omega

@[simp] theorem highByte_wordOf (lo hi : Byte) : highByte (wordOf lo hi) = hi := by
  apply BitVec.eq_of_toNat_eq
  rw [highByte_toNat, wordOf_toNat]
  have := lo.isLt
  omega

/-! ### Instructions and descriptors -/

/-- Every instruction of the default table is an accepted pair, so R72's fault is out of its reach. -/
@[simp] theorem accepts_instr (i : Instr) : accepts i.operation i.mode = true := by cases i <;> rfl

@[simp] theorem Instr.wf_all (i : Instr) : i.wf = true := accepts_instr i

@[simp] theorem Instr.withOperand_operation (b1 b2 : Byte) (i : Instr) : (i.withOperand b1 b2).operation = i.operation := by
  cases i <;> rfl

@[simp] theorem Instr.withOperand_mode (b1 b2 : Byte) (i : Instr) : (i.withOperand b1 b2).mode = i.mode := by
  cases i <;> rfl

/-! ### The table and the decoder -/

/-- A decoded window is a row of the table with its operand filled in. -/
theorem decodeWindow_row {b0 b1 b2 : Byte} {i : Instr} (h : decodeWindow b0 b1 b2 = some i) :
    ∃ r ∈ opcodeTable, r.1 = b0 ∧ i = r.2.withOperand b1 b2 := by
  simp only [decodeWindow, opcodeRow, Option.map_map, Option.map_eq_some_iff] at h
  obtain ⟨r, hr, rfl⟩ := h
  exact ⟨r, List.mem_of_find?_eq_some hr, by simpa using List.find?_some hr, rfl⟩

/-- `DESC` of the standard configuration is the descriptor of the decoder's row. -/
theorem standard_desc (b : Byte) : Config.standard.desc b = (opcodeRow b).map Instr.descriptor := by
  have : (fun r : DescRow => r.opcode == b) ∘ (fun r : Byte × Instr => (⟨r.1, r.2.descriptor⟩ : DescRow)) =
      fun r => r.1 == b := rfl
  simp only [Config.desc, Config.standard, standardDescTable, opcodeRow, List.find?_map, Option.map_map, this]
  rfl

theorem decodeWindow_eq_none {b0 b1 b2 : Byte} : decodeWindow b0 b1 b2 = none ↔ opcodeRow b0 = none := by
  simp [decodeWindow]

end Sys2Proof
end

