-- ==== Sys2Proof/Laws/Memory.lean ====
section
/-! SUPPORT. The laws of the two memory planes: a read after a write, the frame of a write, and the canonical form. None of the
read laws needs the canonical form. -/

namespace Sys2Proof.Machine

/-! ### The value plane -/

theorem Memory.lookup_erase_same (m : Memory) (k : Nat) : (m.erase k).lookup k = unlistedByte := by
  induction m with
  | nil => rfl
  | cons c m ih =>
    by_cases h : c.1 = k
    · simpa [Memory.erase, h] using ih
    · simpa [Memory.erase, Memory.lookup, h] using ih

theorem Memory.lookup_erase_other (m : Memory) {k j : Nat} (h : j ≠ k) : (m.erase k).lookup j = m.lookup j := by
  induction m with
  | nil => rfl
  | cons c m ih =>
    by_cases hk : c.1 = k
    · have hj : c.1 ≠ j := fun e => h (e.symm.trans hk)
      simpa [Memory.erase, Memory.lookup, hk, hk ▸ hj] using ih
    · by_cases hj : c.1 = j
      · subst hj; simp [Memory.erase, Memory.lookup, hk]
      · simpa [Memory.erase, Memory.lookup, hk, hj] using ih

/-- A key that occurs in no cell. -/
theorem Memory.not_mem_erase (m : Memory) (k : Nat) : ∀ c ∈ m.erase k, c.1 ≠ k := by
  intro c hc
  simpa using (List.mem_filter.mp hc).2

theorem Memory.lookup_insert_same (m : Memory) (k : Nat) (v : Byte) (h : ∀ c ∈ m, c.1 ≠ k) :
    (m.insert k v).lookup k = v := by
  induction m with
  | nil => simp [Memory.insert, Memory.lookup]
  | cons c m ih =>
    have hc : c.1 ≠ k := h c (by simp)
    have ih := ih fun d hd => h d (by simp [hd])
    simp only [Memory.insert]
    split
    · simp [Memory.lookup]
    · simpa [Memory.lookup, hc] using ih

theorem Memory.lookup_insert_other (m : Memory) {k j : Nat} (v : Byte) (h : j ≠ k) :
    (m.insert k v).lookup j = m.lookup j := by
  induction m with
  | nil => simp [Memory.insert, Memory.lookup, h.symm]
  | cons c m ih =>
    simp only [Memory.insert]
    split
    · simp [Memory.lookup, h.symm]
    · simp [Memory.lookup, ih]

/-- A read after a write to the same address gives the value written (R38). -/
@[simp] theorem Memory.read_write_same (m : Memory) (a : Addr) (v : Byte) : (m.write a v).read a = v := by
  unfold Memory.write Memory.read
  split
  · rename_i h; rw [Memory.lookup_erase_same, h]
  · exact Memory.lookup_insert_same _ _ _ (Memory.not_mem_erase _ _)

/-- A write leaves every other address alone (R38). -/
theorem Memory.read_write_other (m : Memory) {a b : Addr} (v : Byte) (h : b ≠ a) : (m.write a v).read b = m.read b := by
  have hn : b.toNat ≠ a.toNat := fun e => h (BitVec.eq_of_toNat_eq e)
  unfold Memory.write Memory.read
  split
  · exact Memory.lookup_erase_other _ hn
  · rw [Memory.lookup_insert_other _ _ hn, Memory.lookup_erase_other _ hn]

theorem Memory.read_write (m : Memory) (a b : Addr) (v : Byte) :
    (m.write a v).read b = if b = a then v else m.read b := by
  by_cases h : b = a
  · simp [h]
  · simp [h, Memory.read_write_other m v h]

/-! ### The canonical form of the value plane -/

theorem Memory.wfFrom_mono {lo hi : Nat} (h : lo ≤ hi) : ∀ {m : Memory}, Memory.wfFrom hi m = true → Memory.wfFrom lo m = true
  | [], _ => rfl
  | c :: m, hm => by
    simp only [Memory.wfFrom, Bool.and_eq_true, decide_eq_true_eq] at hm ⊢
    exact ⟨⟨⟨by omega, hm.1.1.2⟩, hm.1.2⟩, hm.2⟩

theorem Memory.wfFrom_erase (k : Nat) : ∀ {m : Memory} {lo : Nat}, Memory.wfFrom lo m = true → Memory.wfFrom lo (m.erase k) = true
  | [], _, _ => rfl
  | c :: m, lo, hm => by
    have ht : Memory.wfFrom (c.1 + 1) (Memory.erase m k) = true := by
      simp only [Memory.wfFrom, Bool.and_eq_true] at hm
      exact Memory.wfFrom_erase k hm.2
    by_cases hk : c.1 = k
    · have hlo : lo ≤ c.1 := by simp only [Memory.wfFrom, Bool.and_eq_true, decide_eq_true_eq] at hm; exact hm.1.1.1
      have : Memory.erase (c :: m) k = Memory.erase m k := by simp [Memory.erase, hk]
      rw [this]
      exact Memory.wfFrom_mono (by omega) ht
    · have : Memory.erase (c :: m) k = c :: Memory.erase m k := by simp [Memory.erase, hk]
      rw [this]
      simp only [Memory.wfFrom, Bool.and_eq_true] at hm ⊢
      exact ⟨hm.1, ht⟩

theorem Memory.wfFrom_insert {k : Nat} {v : Byte} (hk : k < 65536) (hv : v ≠ unlistedByte) :
    ∀ {m : Memory} {lo : Nat}, lo ≤ k → (∀ c ∈ m, c.1 ≠ k) → Memory.wfFrom lo m = true → Memory.wfFrom lo (m.insert k v) = true
  | [], lo, hlo, _, _ => by simp [Memory.insert, Memory.wfFrom, hlo, hk, hv]
  | c :: m, lo, hlo, hne, hm => by
    have hc : c.1 ≠ k := hne c (by simp)
    simp only [Memory.wfFrom, Bool.and_eq_true, decide_eq_true_eq] at hm
    simp only [Memory.insert]
    split
    · simp only [Memory.wfFrom, Bool.and_eq_true, decide_eq_true_eq, bne_iff_ne]
      exact ⟨⟨⟨hlo, hk⟩, hv⟩, ⟨⟨by omega, hm.1.1.2⟩, by simpa using hm.1.2⟩, hm.2⟩
    · simp only [Memory.wfFrom, Bool.and_eq_true, decide_eq_true_eq]
      exact ⟨hm.1, Memory.wfFrom_insert hk hv (by omega) (fun d hd => hne d (by simp [hd])) hm.2⟩

/-- A write keeps the canonical form. -/
theorem Memory.wf_write {m : Memory} (a : Addr) (v : Byte) (h : m.wf = true) : (m.write a v).wf = true := by
  unfold Memory.write Memory.wf at *
  split
  · exact Memory.wfFrom_erase _ h
  · rename_i hv
    exact Memory.wfFrom_insert a.isLt hv (by omega) (Memory.not_mem_erase _ _) (Memory.wfFrom_erase _ h)

/-- The cells a write leaves: the one it wrote or cells that stood there. -/
theorem Memory.mem_insert {m : Memory} {k : Nat} {v : Byte} {c : Host.Cell} : c ∈ m.insert k v ↔ c = (k, v) ∨ c ∈ m := by
  induction m with
  | nil => simp [Memory.insert]
  | cons d m ih =>
    simp only [Memory.insert]
    split
    · simp
    · simp only [List.mem_cons, ih]; tauto

theorem Memory.mem_write {m : Memory} {a : Addr} {v : Byte} {c : Host.Cell} (h : c ∈ m.write a v) : c.1 = a.toNat ∨ c ∈ m := by
  unfold Memory.write at h
  split at h
  · exact .inr (List.mem_filter.mp h).1
  · rcases Memory.mem_insert.mp h with rfl | h
    · exact .inl rfl
    · exact .inr (List.mem_filter.mp h).1

theorem Memory.lookup_mem {m : Memory} {k : Nat} (h : m.lookup k ≠ unlistedByte) : ∃ c ∈ m, c.1 = k := by
  induction m with
  | nil => exact absurd rfl h
  | cons c m ih =>
    by_cases hc : c.1 = k
    · exact ⟨c, by simp, hc⟩
    · obtain ⟨d, hd, hk⟩ := ih (by simpa [Memory.lookup, hc] using h)
      exact ⟨d, by simp [hd], hk⟩

/-! ### The presence plane -/

theorem Presence.mem_insert {q : Presence} {k j : Nat} : j ∈ q.insert k ↔ j = k ∨ j ∈ q := by
  induction q with
  | nil => simp [Presence.insert]
  | cons i q ih =>
    simp only [Presence.insert]
    split
    · simp
    · simp only [List.mem_cons, ih]; tauto

theorem Presence.mem_mark {q : Presence} {a : Addr} {j : Nat} : j ∈ q.mark a ↔ j = a.toNat ∨ j ∈ q := by
  unfold Presence.mark
  split
  · rename_i h
    have : a.toNat ∈ q := by simpa [Presence.has] using h
    constructor
    · exact .inr
    · rintro (rfl | h)
      · exact this
      · exact h
  · exact Presence.mem_insert

/-- Marking sets exactly its own bit (R38). -/
theorem Presence.has_mark (q : Presence) (a b : Addr) : (q.mark a).has b = (decide (b = a) || q.has b) := by
  have h : b.toNat ∈ q.mark a ↔ b.toNat = a.toNat ∨ b.toNat ∈ q := Presence.mem_mark
  by_cases e : b = a
  · simp [Presence.has, e, Presence.mem_mark]
  · have : b.toNat ≠ a.toNat := fun x => e (BitVec.eq_of_toNat_eq x)
    rw [Bool.eq_iff_iff]
    simp [Presence.has, h, e, this]

theorem Presence.wfFrom_insert {k : Nat} (hk : k < 65536) :
    ∀ {q : Presence} {lo : Nat}, lo ≤ k → k ∉ q → Presence.wfFrom lo q = true → Presence.wfFrom lo (q.insert k) = true
  | [], lo, hlo, _, _ => by simp [Presence.insert, Presence.wfFrom, hlo, hk]
  | j :: q, lo, hlo, hne, hq => by
    simp only [List.mem_cons, not_or] at hne
    simp only [Presence.wfFrom, Bool.and_eq_true, decide_eq_true_eq] at hq
    simp only [Presence.insert]
    split
    · simp only [Presence.wfFrom, Bool.and_eq_true, decide_eq_true_eq]
      exact ⟨⟨hlo, hk⟩, ⟨by omega, hq.1.2⟩, hq.2⟩
    · simp only [Presence.wfFrom, Bool.and_eq_true, decide_eq_true_eq]
      exact ⟨hq.1, Presence.wfFrom_insert hk (by omega) hne.2 hq.2⟩

/-- Marking keeps the canonical form. -/
theorem Presence.wf_mark {q : Presence} (a : Addr) (h : q.wf = true) : (q.mark a).wf = true := by
  unfold Presence.mark
  split
  · exact h
  · rename_i hn
    exact Presence.wfFrom_insert a.isLt (by omega) (by simpa [Presence.has] using hn) h

/-! ### The bus write and the host's pre-store over the state -/

theorem State.writeByte_readByte (c : Config) (s : State) (a b : Addr) (v : Byte) :
    (s.writeByte c a v).readByte b = if b = a then v else s.readByte b := Memory.read_write s.mem a b v

theorem State.writeByte_isPresent (c : Config) (s : State) (a b : Addr) (v : Byte) :
    (s.writeByte c a v).isPresent b = ((c.presentOnStore && decide (b = a)) || s.isPresent b) := by
  unfold State.writeByte State.isPresent
  cases c.presentOnStore <;> simp [Presence.has_mark]

theorem State.prestore_readByte (s : State) (a b : Addr) (v : Byte) :
    (s.prestore a v).readByte b = if b = a then v else s.readByte b := Memory.read_write s.mem a b v

theorem State.prestore_isPresent (s : State) (a b : Addr) (v : Byte) :
    (s.prestore a v).isPresent b = (decide (b = a) || s.isPresent b) := Presence.has_mark s.present a b

end Sys2Proof.Machine
end

