-- ==== Sys2Proof/Laws/State.lean ====
section
/-! SUPPORT. One lemma per field of State per update, and the reads of memory through each update, so that no proof unfolds a
record update. -/

namespace Sys2Proof.Machine

/-! ### `writeByte` -/

@[simp] theorem State.writeByte_a (c : Config) (s : State) (ea : Addr) (v : Byte) : (s.writeByte c ea v).a = s.a := rfl
@[simp] theorem State.writeByte_x (c : Config) (s : State) (ea : Addr) (v : Byte) : (s.writeByte c ea v).x = s.x := rfl
@[simp] theorem State.writeByte_y (c : Config) (s : State) (ea : Addr) (v : Byte) : (s.writeByte c ea v).y = s.y := rfl
@[simp] theorem State.writeByte_pc (c : Config) (s : State) (ea : Addr) (v : Byte) : (s.writeByte c ea v).pc = s.pc := rfl
@[simp] theorem State.writeByte_sp (c : Config) (s : State) (ea : Addr) (v : Byte) : (s.writeByte c ea v).sp = s.sp := rfl
@[simp] theorem State.writeByte_p (c : Config) (s : State) (ea : Addr) (v : Byte) : (s.writeByte c ea v).p = s.p := rfl
@[simp] theorem State.writeByte_mem (c : Config) (s : State) (ea : Addr) (v : Byte) : (s.writeByte c ea v).mem = s.mem.write ea v := rfl
@[simp] theorem State.writeByte_present (c : Config) (s : State) (ea : Addr) (v : Byte) : (s.writeByte c ea v).present = if c.presentOnStore then s.present.mark ea else s.present := rfl
@[simp] theorem State.writeByte_run (c : Config) (s : State) (ea : Addr) (v : Byte) : (s.writeByte c ea v).run = s.run := rfl
@[simp] theorem State.writeByte_fault (c : Config) (s : State) (ea : Addr) (v : Byte) : (s.writeByte c ea v).fault = s.fault := rfl

/-! ### `prestore` -/

@[simp] theorem State.prestore_a (s : State) (ea : Addr) (v : Byte) : (s.prestore ea v).a = s.a := rfl
@[simp] theorem State.prestore_x (s : State) (ea : Addr) (v : Byte) : (s.prestore ea v).x = s.x := rfl
@[simp] theorem State.prestore_y (s : State) (ea : Addr) (v : Byte) : (s.prestore ea v).y = s.y := rfl
@[simp] theorem State.prestore_pc (s : State) (ea : Addr) (v : Byte) : (s.prestore ea v).pc = s.pc := rfl
@[simp] theorem State.prestore_sp (s : State) (ea : Addr) (v : Byte) : (s.prestore ea v).sp = s.sp := rfl
@[simp] theorem State.prestore_p (s : State) (ea : Addr) (v : Byte) : (s.prestore ea v).p = s.p := rfl
@[simp] theorem State.prestore_mem (s : State) (ea : Addr) (v : Byte) : (s.prestore ea v).mem = s.mem.write ea v := rfl
@[simp] theorem State.prestore_present (s : State) (ea : Addr) (v : Byte) : (s.prestore ea v).present = s.present.mark ea := rfl
@[simp] theorem State.prestore_run (s : State) (ea : Addr) (v : Byte) : (s.prestore ea v).run = s.run := rfl
@[simp] theorem State.prestore_fault (s : State) (ea : Addr) (v : Byte) : (s.prestore ea v).fault = s.fault := rfl

/-! ### `advancePc` -/

@[simp] theorem State.advancePc_a (s : State) (n : Nat) : (s.advancePc n).a = s.a := rfl
@[simp] theorem State.advancePc_x (s : State) (n : Nat) : (s.advancePc n).x = s.x := rfl
@[simp] theorem State.advancePc_y (s : State) (n : Nat) : (s.advancePc n).y = s.y := rfl
@[simp] theorem State.advancePc_pc (s : State) (n : Nat) : (s.advancePc n).pc = s.pc + BitVec.ofNat 16 n := rfl
@[simp] theorem State.advancePc_sp (s : State) (n : Nat) : (s.advancePc n).sp = s.sp := rfl
@[simp] theorem State.advancePc_p (s : State) (n : Nat) : (s.advancePc n).p = s.p := rfl
@[simp] theorem State.advancePc_mem (s : State) (n : Nat) : (s.advancePc n).mem = s.mem := rfl
@[simp] theorem State.advancePc_present (s : State) (n : Nat) : (s.advancePc n).present = s.present := rfl
@[simp] theorem State.advancePc_run (s : State) (n : Nat) : (s.advancePc n).run = s.run := rfl
@[simp] theorem State.advancePc_fault (s : State) (n : Nat) : (s.advancePc n).fault = s.fault := rfl

/-! ### `halt` -/

@[simp] theorem State.halt_a (s : State) : (s.halt).a = s.a := rfl
@[simp] theorem State.halt_x (s : State) : (s.halt).x = s.x := rfl
@[simp] theorem State.halt_y (s : State) : (s.halt).y = s.y := rfl
@[simp] theorem State.halt_pc (s : State) : (s.halt).pc = s.pc := rfl
@[simp] theorem State.halt_sp (s : State) : (s.halt).sp = s.sp := rfl
@[simp] theorem State.halt_p (s : State) : (s.halt).p = s.p := rfl
@[simp] theorem State.halt_mem (s : State) : (s.halt).mem = s.mem := rfl
@[simp] theorem State.halt_present (s : State) : (s.halt).present = s.present := rfl
@[simp] theorem State.halt_run (s : State) : (s.halt).run = RunState.halted := rfl
@[simp] theorem State.halt_fault (s : State) : (s.halt).fault = s.fault := rfl

/-! ### `takeFault` -/

@[simp] theorem State.takeFault_a (s : State) (r : FaultRecord) : (s.takeFault r).a = s.a := rfl
@[simp] theorem State.takeFault_x (s : State) (r : FaultRecord) : (s.takeFault r).x = s.x := rfl
@[simp] theorem State.takeFault_y (s : State) (r : FaultRecord) : (s.takeFault r).y = s.y := rfl
@[simp] theorem State.takeFault_pc (s : State) (r : FaultRecord) : (s.takeFault r).pc = s.pc := rfl
@[simp] theorem State.takeFault_sp (s : State) (r : FaultRecord) : (s.takeFault r).sp = s.sp := rfl
@[simp] theorem State.takeFault_p (s : State) (r : FaultRecord) : (s.takeFault r).p = s.p := rfl
@[simp] theorem State.takeFault_mem (s : State) (r : FaultRecord) : (s.takeFault r).mem = s.mem := rfl
@[simp] theorem State.takeFault_present (s : State) (r : FaultRecord) : (s.takeFault r).present = s.present := rfl
@[simp] theorem State.takeFault_run (s : State) (r : FaultRecord) : (s.takeFault r).run = RunState.faulted := rfl
@[simp] theorem State.takeFault_fault (s : State) (r : FaultRecord) : (s.takeFault r).fault = some r := rfl

/-! ### `loadA` -/

@[simp] theorem State.loadA_a (s : State) (v : Byte) : (s.loadA v).a = v := rfl
@[simp] theorem State.loadA_x (s : State) (v : Byte) : (s.loadA v).x = s.x := rfl
@[simp] theorem State.loadA_y (s : State) (v : Byte) : (s.loadA v).y = s.y := rfl
@[simp] theorem State.loadA_pc (s : State) (v : Byte) : (s.loadA v).pc = s.pc := rfl
@[simp] theorem State.loadA_sp (s : State) (v : Byte) : (s.loadA v).sp = s.sp := rfl
@[simp] theorem State.loadA_p (s : State) (v : Byte) : (s.loadA v).p = s.p := rfl
@[simp] theorem State.loadA_mem (s : State) (v : Byte) : (s.loadA v).mem = s.mem := rfl
@[simp] theorem State.loadA_present (s : State) (v : Byte) : (s.loadA v).present = s.present := rfl
@[simp] theorem State.loadA_run (s : State) (v : Byte) : (s.loadA v).run = s.run := rfl
@[simp] theorem State.loadA_fault (s : State) (v : Byte) : (s.loadA v).fault = s.fault := rfl

/-! ### `updateZN` -/

@[simp] theorem State.updateZN_a (c : Config) (s : State) (v : Byte) : (s.updateZN c v).a = s.a := rfl
@[simp] theorem State.updateZN_x (c : Config) (s : State) (v : Byte) : (s.updateZN c v).x = s.x := rfl
@[simp] theorem State.updateZN_y (c : Config) (s : State) (v : Byte) : (s.updateZN c v).y = s.y := rfl
@[simp] theorem State.updateZN_pc (c : Config) (s : State) (v : Byte) : (s.updateZN c v).pc = s.pc := rfl
@[simp] theorem State.updateZN_sp (c : Config) (s : State) (v : Byte) : (s.updateZN c v).sp = s.sp := rfl
@[simp] theorem State.updateZN_p (c : Config) (s : State) (v : Byte) : (s.updateZN c v).p = setZN c v s.p := rfl
@[simp] theorem State.updateZN_mem (c : Config) (s : State) (v : Byte) : (s.updateZN c v).mem = s.mem := rfl
@[simp] theorem State.updateZN_present (c : Config) (s : State) (v : Byte) : (s.updateZN c v).present = s.present := rfl
@[simp] theorem State.updateZN_run (c : Config) (s : State) (v : Byte) : (s.updateZN c v).run = s.run := rfl
@[simp] theorem State.updateZN_fault (c : Config) (s : State) (v : Byte) : (s.updateZN c v).fault = s.fault := rfl

/-! ### `loadAccumulator` -/

@[simp] theorem State.loadAccumulator_a (s : State) (len : Nat) (v : Byte) : (s.loadAccumulator len v).a = v := rfl
@[simp] theorem State.loadAccumulator_x (s : State) (len : Nat) (v : Byte) : (s.loadAccumulator len v).x = s.x := rfl
@[simp] theorem State.loadAccumulator_y (s : State) (len : Nat) (v : Byte) : (s.loadAccumulator len v).y = s.y := rfl
@[simp] theorem State.loadAccumulator_pc (s : State) (len : Nat) (v : Byte) : (s.loadAccumulator len v).pc = s.pc + BitVec.ofNat 16 len := rfl
@[simp] theorem State.loadAccumulator_sp (s : State) (len : Nat) (v : Byte) : (s.loadAccumulator len v).sp = s.sp := rfl
@[simp] theorem State.loadAccumulator_p (s : State) (len : Nat) (v : Byte) : (s.loadAccumulator len v).p = setZN Config.standard v s.p := rfl
@[simp] theorem State.loadAccumulator_mem (s : State) (len : Nat) (v : Byte) : (s.loadAccumulator len v).mem = s.mem := rfl
@[simp] theorem State.loadAccumulator_present (s : State) (len : Nat) (v : Byte) : (s.loadAccumulator len v).present = s.present := rfl
@[simp] theorem State.loadAccumulator_run (s : State) (len : Nat) (v : Byte) : (s.loadAccumulator len v).run = s.run := rfl
@[simp] theorem State.loadAccumulator_fault (s : State) (len : Nat) (v : Byte) : (s.loadAccumulator len v).fault = s.fault := rfl

/-! ### `storeAccumulator` -/

@[simp] theorem State.storeAccumulator_a (s : State) (len : Nat) (ea : Addr) : (s.storeAccumulator len ea).a = s.a := rfl
@[simp] theorem State.storeAccumulator_x (s : State) (len : Nat) (ea : Addr) : (s.storeAccumulator len ea).x = s.x := rfl
@[simp] theorem State.storeAccumulator_y (s : State) (len : Nat) (ea : Addr) : (s.storeAccumulator len ea).y = s.y := rfl
@[simp] theorem State.storeAccumulator_pc (s : State) (len : Nat) (ea : Addr) : (s.storeAccumulator len ea).pc = s.pc + BitVec.ofNat 16 len := rfl
@[simp] theorem State.storeAccumulator_sp (s : State) (len : Nat) (ea : Addr) : (s.storeAccumulator len ea).sp = s.sp := rfl
@[simp] theorem State.storeAccumulator_p (s : State) (len : Nat) (ea : Addr) : (s.storeAccumulator len ea).p = s.p := rfl
@[simp] theorem State.storeAccumulator_mem (s : State) (len : Nat) (ea : Addr) : (s.storeAccumulator len ea).mem = s.mem.write ea s.a := rfl
@[simp] theorem State.storeAccumulator_present (s : State) (len : Nat) (ea : Addr) : (s.storeAccumulator len ea).present = s.present.mark ea := rfl
@[simp] theorem State.storeAccumulator_run (s : State) (len : Nat) (ea : Addr) : (s.storeAccumulator len ea).run = s.run := rfl
@[simp] theorem State.storeAccumulator_fault (s : State) (len : Nat) (ea : Addr) : (s.storeAccumulator len ea).fault = s.fault := rfl

/-! ### Reads through an update that leaves memory alone -/

@[simp] theorem State.advancePc_readByte (s : State) (n : Nat) (b : Addr) : (s.advancePc n).readByte b = s.readByte b := rfl
@[simp] theorem State.advancePc_isPresent (s : State) (n : Nat) (b : Addr) : (s.advancePc n).isPresent b = s.isPresent b := rfl
@[simp] theorem State.halt_readByte (s : State) (b : Addr) : (s.halt).readByte b = s.readByte b := rfl
@[simp] theorem State.halt_isPresent (s : State) (b : Addr) : (s.halt).isPresent b = s.isPresent b := rfl
@[simp] theorem State.takeFault_readByte (s : State) (r : FaultRecord) (b : Addr) : (s.takeFault r).readByte b = s.readByte b := rfl
@[simp] theorem State.takeFault_isPresent (s : State) (r : FaultRecord) (b : Addr) : (s.takeFault r).isPresent b = s.isPresent b := rfl
@[simp] theorem State.loadA_readByte (s : State) (v : Byte) (b : Addr) : (s.loadA v).readByte b = s.readByte b := rfl
@[simp] theorem State.loadA_isPresent (s : State) (v : Byte) (b : Addr) : (s.loadA v).isPresent b = s.isPresent b := rfl
@[simp] theorem State.updateZN_readByte (c : Config) (s : State) (v : Byte) (b : Addr) : (s.updateZN c v).readByte b = s.readByte b := rfl
@[simp] theorem State.updateZN_isPresent (c : Config) (s : State) (v : Byte) (b : Addr) : (s.updateZN c v).isPresent b = s.isPresent b := rfl
@[simp] theorem State.loadAccumulator_readByte (s : State) (len : Nat) (v : Byte) (b : Addr) : (s.loadAccumulator len v).readByte b = s.readByte b := rfl
@[simp] theorem State.loadAccumulator_isPresent (s : State) (len : Nat) (v : Byte) (b : Addr) : (s.loadAccumulator len v).isPresent b = s.isPresent b := rfl

/-! ### The fetches (R10) -/

@[simp] theorem State.fetchByte_value (s : State) : s.fetchByte.1 = s.readByte s.pc := rfl
@[simp] theorem State.fetchByte_state (s : State) : s.fetchByte.2 = s.advancePc 1 := rfl
@[simp] theorem State.fetchWord_value (s : State) : s.fetchWord.1 = wordOf (s.readByte s.pc) (s.readByte (s.pc + 1)) := rfl

theorem State.advancePc_advancePc (s : State) (m n : Nat) : (s.advancePc m).advancePc n = s.advancePc (m + n) := by
  simp [State.advancePc, BitVec.ofNat_add, BitVec.add_assoc]

@[simp] theorem State.fetchWord_state (s : State) : s.fetchWord.2 = s.advancePc 2 := State.advancePc_advancePc s 1 1

/-! ### Addresses read memory, X and Y only -/

@[simp] theorem State.advancePc_pointerRead (c : Config) (s : State) (n : Nat) (d : Byte) :
    (s.advancePc n).pointerRead c d = s.pointerRead c d := rfl
@[simp] theorem State.advancePc_eaAbsoluteX (s : State) (n : Nat) (w : Addr) : (s.advancePc n).eaAbsoluteX w = s.eaAbsoluteX w := rfl
@[simp] theorem State.advancePc_eaAbsoluteY (s : State) (n : Nat) (w : Addr) : (s.advancePc n).eaAbsoluteY w = s.eaAbsoluteY w := rfl
@[simp] theorem State.advancePc_eaZeroPageX (s : State) (n : Nat) (d : Byte) : (s.advancePc n).eaZeroPageX d = s.eaZeroPageX d := rfl
@[simp] theorem State.advancePc_eaZeroPageY (s : State) (n : Nat) (d : Byte) : (s.advancePc n).eaZeroPageY d = s.eaZeroPageY d := rfl
@[simp] theorem State.advancePc_eaIndexedIndirectX (c : Config) (s : State) (n : Nat) (d : Byte) :
    (s.advancePc n).eaIndexedIndirectX c d = s.eaIndexedIndirectX c d := rfl
@[simp] theorem State.advancePc_eaIndirectIndexedY (c : Config) (s : State) (n : Nat) (d : Byte) :
    (s.advancePc n).eaIndirectIndexedY c d = s.eaIndirectIndexedY c d := rfl
@[simp] theorem State.advancePc_deliver (s : State) (n : Nat) (k : OperandKind) (ea : Addr) :
    (s.advancePc n).deliver k ea = s.deliver k ea := rfl

/-! ### Launch -/

theorem State.reset_eq_launch : State.reset = State.launch ⟨0, 0, 0, 0, 0⟩ [] [] := rfl

end Sys2Proof.Machine
end

