-- ==== Sys2Proof/Laws/Step.lean ====
section
/-! SUPPORT. What the shared operations of a step can do, said once: the resolver, the two operations, the step. -/

namespace Sys2Proof.Machine

/-! ### The resolver -/

/-- The resolver writes PC and nothing else (R83). -/
theorem State.resolve_state (c : Config) (s : State) (mode : Mode) (k : OperandKind) :
    (s.resolve c mode k).2 = s.advancePc mode.operandBytes := by
  cases mode <;> simp [State.resolve, Mode.operandBytes]
  simp [State.advancePc]

/-! ### Execution -/

/-- Everything an instruction can do: a completed Load-Accumulator, which stores nothing, or a completed Store-Accumulator at the
address `storeAddr` gives. -/
theorem exec_cases (i : Instr) (s : State) :
    (i.operation = .lda ∧ storeAddr i s = none ∧ ∃ v, exec i s = .next (s.loadAccumulator i.length v)) ∨
    (i.operation = .sta ∧ ∃ ea, storeAddr i s = some ea ∧ exec i s = .next (s.storeAccumulator i.length ea)) := by
  cases i <;> first
    | exact .inl ⟨rfl, rfl, _, rfl⟩
    | exact .inr ⟨rfl, _, rfl, rfl⟩

/-! ### The step -/

/-- Everything a step that answers a next state can have been: a halt, an unknown opcode, or the decoded instruction run by
`exec` (R140). -/
theorem step_cases {s t : State} (h : step s = .next t) :
    s.run = .running ∧
    ((s.isPresent s.pc = false ∧ t = s.halt) ∨
     (s.isPresent s.pc = true ∧ s.fetchInstr = none ∧ t = s.takeFault (.unknownOpcode (s.readByte s.pc))) ∨
     (∃ i, s.isPresent s.pc = true ∧ s.fetchInstr = some i ∧ exec i s = .next t)) := by
  unfold step at h
  split at h
  · cases h
  · cases h
  · rename_i hr
    refine ⟨hr, ?_⟩
    split at h
    · rename_i hp
      split at h
      · rename_i hf
        cases h
        exact .inr (.inl ⟨hp, hf, rfl⟩)
      · rename_i i hf
        rw [if_pos (accepts_instr i)] at h
        exact .inr (.inr ⟨i, hp, hf, h⟩)
    · rename_i hp
      cases h
      exact .inl ⟨by simpa using hp, rfl⟩

end Sys2Proof.Machine
end

