-- ==== Sys2Proof/Laws/Engine.lean ====
section
/-! SUPPORT. What a step of the general engine can do, said once, under any configuration; and that a store keeps both memory
planes canonical. -/

namespace Sys2Proof.Machine

/-- A descriptor the table accepts executes in one of two ways: a value loaded, with its flags, or A stored at the address its
mode resolves to; PC moves past the instruction either way (R73 to R76). -/
theorem State.dispatch_cases (c : Config) (s : State) (d : Descriptor) (h : accepts d.op d.mode = true) :
    (d.op = .lda ∧ ∃ v, s.dispatch c d = ({ s.advancePc (1 + d.mode.operandBytes) with a := v } : State).updateZN c v) ∨
    (d.op = .sta ∧ ∃ ea, ((s.advancePc 1).resolve c d.mode .address).1 = .address ea ∧
      s.dispatch c d = (s.advancePc (1 + d.mode.operandBytes)).writeByte c ea s.a) := by
  obtain ⟨op, m⟩ := d
  have hs : ∀ k, ((s.advancePc 1).resolve c m k).2 = s.advancePc (1 + m.operandBytes) := fun k => by
    rw [State.resolve_state, State.advancePc_advancePc]
  cases op with
  | lda =>
    have hv : ∃ v, ((s.advancePc 1).resolve c m .value).1 = .value v := by
      cases m <;> first | exact ⟨_, rfl⟩ | cases h
    obtain ⟨v, hv⟩ := hv
    exact .inl ⟨rfl, v, by
      simp only [State.dispatch, h, if_true, Operation.kind, hv, hs, State.execute, State.applyFlags, Operation.flagSource,
        State.dataReg]⟩
  | sta =>
    have hv : ∃ ea, ((s.advancePc 1).resolve c m .address).1 = .address ea := by
      cases m <;> first | exact ⟨_, rfl⟩ | cases h
    obtain ⟨ea, hv⟩ := hv
    exact .inr ⟨rfl, ea, hv, by
      simp only [State.dispatch, h, if_true, Operation.kind, hv, hs, State.execute, State.applyFlags, Operation.flagSource]
      rfl⟩

/-- Everything a step of the engine that answers a next state can have been: a halt, either fault, or an accepted descriptor
executed (R140). -/
theorem stepWith_cases {c : Config} {s t : State} (h : stepWith c s = .next t) :
    s.run = .running ∧
    ((s.isPresent s.pc = false ∧ t = s.halt) ∨
     (s.isPresent s.pc = true ∧ c.desc (s.readByte s.pc) = none ∧ t = s.takeFault (.unknownOpcode (s.readByte s.pc))) ∨
     (∃ d, s.isPresent s.pc = true ∧ c.desc (s.readByte s.pc) = some d ∧ accepts d.op d.mode = false ∧
       t = s.takeFault (.unsupportedAddressingMode d.op d.mode)) ∨
     (∃ d, s.isPresent s.pc = true ∧ c.desc (s.readByte s.pc) = some d ∧ accepts d.op d.mode = true ∧ t = s.dispatch c d)) := by
  unfold stepWith at h
  split at h
  · cases h
  · cases h
  · rename_i hr
    refine ⟨hr, ?_⟩
    split at h
    · rename_i hp
      split at h
      · rename_i hd
        cases h
        exact .inr (.inl ⟨hp, hd, rfl⟩)
      · rename_i d hd
        cases h
        cases ha : accepts d.op d.mode with
        | true => exact .inr (.inr (.inr ⟨d, hp, hd, ha, rfl⟩))
        | false => exact .inr (.inr (.inl ⟨d, hp, hd, ha, by simp [State.dispatch, ha]⟩))
    · rename_i hp
      cases h
      exact .inl ⟨by simpa using hp, rfl⟩

/-- A store keeps both planes canonical, whether it marks or not (R38). -/
theorem State.writeByte_wf (c : Config) (s : State) (a : Addr) (v : Byte) (h : s.mem.wf = true ∧ s.present.wf = true) :
    (s.writeByte c a v).mem.wf = true ∧ (s.writeByte c a v).present.wf = true := by
  refine ⟨Memory.wf_write a v h.1, ?_⟩
  unfold State.writeByte
  cases c.presentOnStore
  · exact h.2
  · exact Presence.wf_mark a h.2

end Sys2Proof.Machine
end

