-- ==== Sys2Proof/Laws/PerInstr.lean ====
section
/-! SUPPORT. Statements for all instructions, one lemma per constructor: each encoding is as long as the instruction's mode says
(30_encoding.md R57). -/

namespace Sys2Proof.Laws.EncodedLength

/-- The encoding of `i` has `1 + operand_bytes(mode)` bytes (R57). -/
def Statement (i : Instr) : Prop := (encode i).length = i.length

theorem ldaImmediate (d : Byte) : Statement (.ldaImmediate d) := rfl
theorem ldaZeroPage (d : Byte) : Statement (.ldaZeroPage d) := rfl
theorem ldaZeroPageX (d : Byte) : Statement (.ldaZeroPageX d) := rfl
theorem ldaAbsolute (w : Addr) : Statement (.ldaAbsolute w) := rfl
theorem ldaAbsoluteX (w : Addr) : Statement (.ldaAbsoluteX w) := rfl
theorem ldaAbsoluteY (w : Addr) : Statement (.ldaAbsoluteY w) := rfl
theorem ldaIndirectX (d : Byte) : Statement (.ldaIndirectX d) := rfl
theorem ldaIndirectY (d : Byte) : Statement (.ldaIndirectY d) := rfl
theorem staZeroPage (d : Byte) : Statement (.staZeroPage d) := rfl
theorem staZeroPageX (d : Byte) : Statement (.staZeroPageX d) := rfl
theorem staAbsolute (w : Addr) : Statement (.staAbsolute w) := rfl
theorem staAbsoluteX (w : Addr) : Statement (.staAbsoluteX w) := rfl
theorem staAbsoluteY (w : Addr) : Statement (.staAbsoluteY w) := rfl
theorem staIndirectX (d : Byte) : Statement (.staIndirectX d) := rfl
theorem staIndirectY (d : Byte) : Statement (.staIndirectY d) := rfl

end Sys2Proof.Laws.EncodedLength
end

