-- ==== Sys2Proof/Laws/Run.lean ====
section
/-! SUPPORT. A run of steps unfolded once, and its induction packaged once. -/

namespace Sys2Proof.Machine

@[simp] theorem runState_zero (s : State) : runState 0 s = some s := rfl

/-- `k + 1` steps are one step and `k` more. -/
theorem runState_succ (k : Nat) (s : State) :
    runState (k + 1) s = match step s with
      | .next t    => runState k t
      | .fault _   => none
      | .refused _ => none := by
  simp only [runState, Host.Core.run]
  generalize hs : Sys2Proof.core.step s = o
  replace hs : step s = o := hs
  rw [hs]
  cases o <;> rfl

/-- A relation that holds of a state and itself, and carries back over one step, holds from the start of a run to its end. -/
theorem run_induction {P : State → State → Prop} (refl : ∀ s, P s s)
    (head : ∀ s t u, step s = .next t → P t u → P s u) (k : Nat) :
    ∀ s t, runState k s = some t → P s t := by
  induction k with
  | zero =>
    intro s t h
    rw [runState_zero, Option.some.injEq] at h
    exact h ▸ refl s
  | succ k ih =>
    intro s t h
    rw [runState_succ] at h
    cases hs : step s with
    | next u => rw [hs] at h; exact head s u t hs (ih u t h)
    | fault r => rw [hs] at h; cases h
    | refused r => rw [hs] at h; cases h

end Sys2Proof.Machine
end

