-- ==== Sys2Proof/Machine/Assembly.lean ====
section
/-! DEFINITION. The two spellings of an instruction the spec uses (30_encoding.md R65, D18); presentation only. -/

namespace Sys2Proof.Machine

/-- One hexadecimal digit. -/
def hexDigit (n : Nat) : Char := Nat.digitChar n |>.toUpper

/-- Two hexadecimal digits. -/
def hexByte (b : Byte) : List Char := [hexDigit (b.toNat / 16), hexDigit (b.toNat % 16)]

/-- Four hexadecimal digits, the high byte first. -/
def hexWord (w : Addr) : List Char := hexByte (highByte w) ++ hexByte (lowByte w)

/-- The symbolic name of an opcode (R59, R65 (a)). -/
def symbolicName : Instr → String
  | .ldaImmediate _ => "LDA_IMMEDIATE"
  | .ldaZeroPage _  => "LDA_ZERO_PAGE"
  | .ldaZeroPageX _ => "LDA_ZERO_PAGE_X"
  | .ldaAbsolute _  => "LDA_ABSOLUTE"
  | .ldaAbsoluteX _ => "LDA_ABSOLUTE_X"
  | .ldaAbsoluteY _ => "LDA_ABSOLUTE_Y"
  | .ldaIndirectX _ => "LDA_INDIRECT_X"
  | .ldaIndirectY _ => "LDA_INDIRECT_Y"
  | .staZeroPage _  => "STA_ZERO_PAGE"
  | .staZeroPageX _ => "STA_ZERO_PAGE_X"
  | .staAbsolute _  => "STA_ABSOLUTE"
  | .staAbsoluteX _ => "STA_ABSOLUTE_X"
  | .staAbsoluteY _ => "STA_ABSOLUTE_Y"
  | .staIndirectX _ => "STA_INDIRECT_X"
  | .staIndirectY _ => "STA_INDIRECT_Y"

/-- The operand in conventional syntax (R65 (b)). -/
def operandSyntax : Instr → List Char
  | .ldaImmediate d => ['#', '$'] ++ hexByte d
  | .ldaZeroPage d  => ['$'] ++ hexByte d
  | .ldaZeroPageX d => ['$'] ++ hexByte d ++ [',', 'X']
  | .ldaAbsolute w  => ['$'] ++ hexWord w
  | .ldaAbsoluteX w => ['$'] ++ hexWord w ++ [',', 'X']
  | .ldaAbsoluteY w => ['$'] ++ hexWord w ++ [',', 'Y']
  | .ldaIndirectX d => ['(', '$'] ++ hexByte d ++ [',', 'X', ')']
  | .ldaIndirectY d => ['(', '$'] ++ hexByte d ++ [')', ',', 'Y']
  | .staZeroPage d  => ['$'] ++ hexByte d
  | .staZeroPageX d => ['$'] ++ hexByte d ++ [',', 'X']
  | .staAbsolute w  => ['$'] ++ hexWord w
  | .staAbsoluteX w => ['$'] ++ hexWord w ++ [',', 'X']
  | .staAbsoluteY w => ['$'] ++ hexWord w ++ [',', 'Y']
  | .staIndirectX d => ['(', '$'] ++ hexByte d ++ [',', 'X', ')']
  | .staIndirectY d => ['(', '$'] ++ hexByte d ++ [')', ',', 'Y']

/-- The operation's mnemonic. -/
def operationName : Operation → List Char
  | .lda => ['L', 'D', 'A']
  | .sta => ['S', 'T', 'A']

/-- An instruction as assembly text (R65 (b)). -/
def assembly (i : Instr) : List Char := operationName i.operation ++ [' '] ++ operandSyntax i

end Sys2Proof.Machine
end

