-- ==== Sys2Proof/Tests/Slice0.lean ====
section
/-! SUPPORT. Tests of the model and witnesses of the statements' hypotheses. Expected results are the spec's: the worked examples
of 42_load_accumulator.md and 43_store_accumulator.md, the vectors of 95_test_vectors.md (named V-…), the encodings of
opcode_table.json. Each test is one step on a small state. -/

namespace Sys2Proof.Tests

open Sys2Proof.Machine Sys2Proof.Claims

/-! ### Helpers -/

/-- A launch state with pre-stored bytes, the registers A, X, Y, P given and SP = 0xFD (the general launch, R151). -/
def st (a x y p : Byte) (cells : List (Addr × Byte)) : State :=
  cells.foldl (fun s c => s.prestore c.1 c.2) (State.launch ⟨a, x, y, 0xFD, p⟩ [] [])

/-- What `f` sees in the next state. -/
def after {α : Type} (o : Host.Outcome State Fault Refusal) (f : State → α) : Option α :=
  match o with
  | .next t    => some (f t)
  | .fault _   => none
  | .refused _ => none

/-- A, P and PC. -/
def apc (s : State) : Byte × Byte × Addr := (s.a, s.p, s.pc)

/-- A, P, PC, and the byte and presence bit at `ea`. -/
def store (ea : Addr) (s : State) : Byte × Byte × Addr × Byte × Bool := (s.a, s.p, s.pc, s.readByte ea, s.isPresent ea)

/-- RUN, FAULT, PC, A and P. -/
def ended (s : State) : RunState × Option FaultRecord × Addr × Byte × Byte := (s.run, s.fault, s.pc, s.a, s.p)

/-! ### Well-formedness: one ill-formed term for each check -/

theorem test_wf_descriptor_refuses_sta_immediate : (Descriptor.mk .sta .immediate).wf = false := by decide
theorem test_wf_descriptor_refuses_lda_implicit : (Descriptor.mk .lda .implicit).wf = false := by decide
theorem test_wf_descriptor_refuses_sta_implicit : (Descriptor.mk .sta .implicit).wf = false := by decide
theorem test_wf_config_refuses_one_bit_for_both_flags : ({ Config.standard with zBit := 7 } : Config).wf = false := by decide
theorem test_wf_config_refuses_two_rows_for_an_opcode :
    ({ Config.standard with descTable := ⟨0xA9, ⟨.sta, .zeroPage⟩⟩ :: standardDescTable } : Config).wf = false := by decide
theorem test_wf_image_refuses_32769_bytes : imageFits (List.replicate 32769 0) = false := by
  rw [imageFits, List.length_replicate]; rfl
theorem test_wf_standard_config : Config.standard.wf = true := by decide

/-! ### Decoding: every constructor, its word written out from opcode_table.json -/

theorem test_decode_lda :
    decode [0b10101001, 0x7F] = .ok (.ldaImmediate 0x7F, []) ∧
    decode [0b10100101, 0x10] = .ok (.ldaZeroPage 0x10, []) ∧
    decode [0b10110101, 0x10] = .ok (.ldaZeroPageX 0x10, []) ∧
    decode [0b10101101, 0x34, 0x12] = .ok (.ldaAbsolute 0x1234, []) ∧
    decode [0b10111101, 0x34, 0x12] = .ok (.ldaAbsoluteX 0x1234, []) ∧
    decode [0b10111001, 0x34, 0x12] = .ok (.ldaAbsoluteY 0x1234, []) ∧
    decode [0b10100001, 0x20] = .ok (.ldaIndirectX 0x20, []) ∧
    decode [0b10110001, 0x30] = .ok (.ldaIndirectY 0x30, []) := by decide

theorem test_decode_sta :
    decode [0b10000101, 0x10] = .ok (.staZeroPage 0x10, []) ∧
    decode [0b10010101, 0x10] = .ok (.staZeroPageX 0x10, []) ∧
    decode [0b10001101, 0x34, 0x12] = .ok (.staAbsolute 0x1234, []) ∧
    decode [0b10011101, 0x34, 0x12] = .ok (.staAbsoluteX 0x1234, []) ∧
    decode [0b10011001, 0x34, 0x12] = .ok (.staAbsoluteY 0x1234, []) ∧
    decode [0b10000001, 0x20] = .ok (.staIndirectX 0x20, []) ∧
    decode [0b10010001, 0x30] = .ok (.staIndirectY 0x30, []) := by decide

/-- R62, R63: 0x00 and 0x89 are unknown like any other; a short list is named as such. -/
theorem test_decode_rejects_by_name :
    decode [] = .error .noBytes ∧ decode [0x00, 0x10] = .error (.unknownOpcode 0x00) ∧
    decode [0x89] = .error (.unknownOpcode 0x89) ∧ decode [0xAD, 0x00] = .error (.missingOperand 0xAD) := by decide

/-- A table word: byte 0 lowest, absent operand bits zero. -/
theorem test_decodeTableWord :
    decodeTableWord 8 0xAD = some (.ldaAbsolute 0) ∧ decodeTableWord 24 0x40008D = some (.staAbsolute 0x4000) ∧
    decodeTableWord 16 0x2081 = some (.staIndirectX 0x20) ∧ decodeTableWord 8 0xEA = none := by decide

/-- R65's examples of the two spellings. -/
theorem test_assembly :
    assembly (.ldaImmediate 0xAA) = "LDA #$AA".toList ∧ assembly (.ldaAbsoluteX 0x4000) = "LDA $4000,X".toList ∧
    assembly (.ldaIndirectX 0x20) = "LDA ($20,X)".toList ∧ assembly (.staIndirectY 0x30) = "STA ($30),Y".toList ∧
    symbolicName (.staAbsolute 0x4000) = "STA_ABSOLUTE" := by decide

/-! ### The placed instruction is the next one run -/

theorem test_withFetchWord_runs :
    after (step (State.reset.withFetchWord 16 0xAAA9)) apc = some (0xAA, 0x80, 0x8002) ∧
    after (step (State.reset.withFetchWord 8 0x85)) (store 0x0000) = some (0x00, 0x00, 0x8002, 0x00, true) := by decide

/-! ### Load-Accumulator: two vectors per form at most -/

/-- V-L1: loading zero sets Z and clears a set N. -/
theorem test_ldaImmediate_zero :
    after (step (st 0x55 0 0 0x80 [(0x8000, 0xA9), (0x8001, 0x00)])) apc = some (0x00, 0x02, 0x8002) := by decide

/-- V-W1: the operand of an instruction at 0xFFFF comes from 0x0000. -/
theorem test_ldaImmediate_at_top_of_memory :
    after (step { st 0 0 0 0 [(0xFFFF, 0xA9), (0x0000, 0x7F)] with pc := 0xFFFF }) apc = some (0x7F, 0x00, 0x0001) := by decide

/-- V-L2. -/
theorem test_ldaZeroPage :
    after (step (st 0 0 0 0x02 [(0x8000, 0xA5), (0x8001, 0x10), (0x0010, 0x80)])) apc = some (0x80, 0x80, 0x8002) := by decide

/-- V-L4: the sum wraps in page 0. -/
theorem test_ldaZeroPageX_wraps :
    after (step (st 0 0x20 0 0 [(0x8000, 0xB5), (0x8001, 0xF0), (0x0010, 0x44), (0x0110, 0xEE)])) apc
      = some (0x44, 0x00, 0x8002) := by decide

/-- V-L5: low byte first. -/
theorem test_ldaAbsolute :
    after (step (st 0 0 0 0 [(0x8000, 0xAD), (0x8001, 0x34), (0x8002, 0x12), (0x1234, 0xFF)])) apc
      = some (0xFF, 0x80, 0x8003) := by decide

/-- V-L14: an absent data byte reads 0, and the absent operand bytes of P8 do. -/
theorem test_ldaAbsolute_absent :
    after (step (st 0x99 0 0 0x80 [(0x8000, 0xAD), (0x8001, 0x00), (0x8002, 0x30)])) apc = some (0x00, 0x02, 0x8003) ∧
    after (step (st 0 0 0 0 [(0x8000, 0xAD), (0x0000, 0x42)])) apc = some (0x42, 0x00, 0x8003) := by decide

/-- V-L7: the sum wraps at 65536. -/
theorem test_ldaAbsoluteX_wraps :
    after (step (st 0 0x20 0 0 [(0x8000, 0xBD), (0x8001, 0xF0), (0x8002, 0xFF), (0x0010, 0x99)])) apc
      = some (0x99, 0x80, 0x8003) := by decide

/-- V-L8: a present zero byte loads zero. -/
theorem test_ldaAbsoluteY :
    after (step (st 0x77 0 0xFF 0 [(0x8000, 0xB9), (0x8001, 0x00), (0x8002, 0x20), (0x20FF, 0x00)])) apc
      = some (0x00, 0x02, 0x8003) := by decide

/-- V-L9, the document's scenario, from P = 0xFF (S-S3). -/
theorem test_ldaIndirectX :
    after (step (st 0 0x04 0 0xFF [(0x8000, 0xA1), (0x8001, 0x20), (0x0025, 0x40), (0x4000, 0x7F)])) apc
      = some (0x7F, 0x7D, 0x8002) := by decide

/-- P6: a pointer at 0x00FF has its high byte at 0x0100. -/
theorem test_ldaIndirectX_pointer_at_ff :
    after (step (st 0 0 1 0 [(0x8000, 0xA1), (0x8001, 0xFF), (0x00FF, 0x10), (0x0100, 0x20), (0x0000, 0x30),
      (0x2010, 0xAB), (0x3010, 0xEE)])) apc = some (0xAB, 0x80, 0x8002) := by decide

/-- V-L12: the post-index wraps at 65536. -/
theorem test_ldaIndirectY_wraps :
    after (step (st 0 0 0x02 0 [(0x8000, 0xB1), (0x8001, 0x40), (0x0040, 0xFF), (0x0041, 0xFF), (0x0001, 0x66)])) apc
      = some (0x66, 0x00, 0x8002) := by decide

/-! ### Store-Accumulator -/

/-- V-S1: storing zero makes the byte present and leaves P alone. -/
theorem test_staZeroPage_zero :
    after (step (st 0x00 0 0 0x80 [(0x8000, 0x85), (0x8001, 0x10)])) (store 0x0010)
      = some (0x00, 0x80, 0x8002, 0x00, true) := by decide

/-- V-S2: the sum wraps in page 0. -/
theorem test_staZeroPageX_wraps :
    after (step (st 0xAB 0x02 0 0 [(0x8000, 0x95), (0x8001, 0xFF)])) (store 0x0001)
      = some (0xAB, 0x00, 0x8002, 0xAB, true) := by decide

/-- V-S3, the document's scenario. -/
theorem test_staAbsolute :
    after (step (st 0xAA 0 0 0xB4 [(0x8000, 0x8D), (0x8001, 0x00), (0x8002, 0x40)])) (store 0x4000)
      = some (0xAA, 0xB4, 0x8003, 0xAA, true) := by decide

/-- V-S8: an instruction overwrites its own opcode byte and still completes. -/
theorem test_staAbsolute_over_itself :
    after (step (st 0xEA 0 0 0 [(0x8000, 0x8D), (0x8001, 0x00), (0x8002, 0x80)])) (store 0x8000)
      = some (0xEA, 0x00, 0x8003, 0xEA, true) := by decide

/-- V-S4: the sum wraps at 65536. -/
theorem test_staAbsoluteX_wraps :
    after (step (st 0x12 0x01 0 0 [(0x8000, 0x9D), (0x8001, 0xFF), (0x8002, 0xFF)])) (store 0x0000)
      = some (0x12, 0x00, 0x8003, 0x12, true) := by decide

/-- V-S5: storing a negative value touches no flag. -/
theorem test_staAbsoluteY :
    after (step (st 0x80 0 0x80 0x02 [(0x8000, 0x99), (0x8001, 0x00), (0x8002, 0x02)])) (store 0x0280)
      = some (0x80, 0x02, 0x8003, 0x80, true) := by decide

/-- V-S6. -/
theorem test_staIndirectX :
    after (step (st 0x5A 0xFE 0 0 [(0x8000, 0x81), (0x8001, 0x00), (0x00FE, 0x00), (0x00FF, 0x03)])) (store 0x0300)
      = some (0x5A, 0x00, 0x8002, 0x5A, true) := by decide

/-- V-S7. -/
theorem test_staIndirectY :
    after (step (st 0xC3 0 0xFF 0 [(0x8000, 0x91), (0x8001, 0x80), (0x0080, 0x01), (0x0081, 0x60)])) (store 0x6100)
      = some (0xC3, 0x00, 0x8002, 0xC3, true) := by decide

/-! ### Flags (95_test_vectors.md 2.1, P0 = 0x34 and V-Z1) -/

theorem test_setZN_table :
    setZN Config.standard 0x00 0x34 = 0x36 ∧ setZN Config.standard 0x01 0xFF = 0x7D ∧ setZN Config.standard 0x7F 0x34 = 0x34 ∧
    setZN Config.standard 0x80 0x34 = 0xB4 ∧ setZN Config.standard 0x80 0xFD = 0xFD ∧ setZN Config.standard 0xFF 0x00 = 0x80 := by
  decide

/-! ### Halt, faults, the terminal states -/

/-- V-H1: the empty image. -/
theorem test_halt_on_empty_image :
    after (step (st 0x01 0x02 0x03 0x05 [])) ended = some (.halted, none, 0x8000, 0x01, 0x05) := by decide

/-- V-H3, V-F2: a present zero is not absence. -/
theorem test_written_zero_faults :
    after (step (st 0x01 0 0 0x80 [(0x8000, 0x00)])) ended
      = some (.faulted, some (.unknownOpcode 0x00), 0x8000, 0x01, 0x80) := by decide

/-- V-F1. -/
theorem test_unknown_opcode_faults :
    after (step (st 0x11 0x22 0x33 0x55 [(0x8000, 0xEA)])) ended
      = some (.faulted, some (.unknownOpcode 0xEA), 0x8000, 0x11, 0x55) := by decide

/-- V-F3, V-F5: another table's unsupported modes. -/
theorem test_unsupported_mode_faults :
    after (stepWith { Config.standard with descTable := ⟨0x89, ⟨.sta, .immediate⟩⟩ :: standardDescTable }
      (st 0x01 0 0 0x02 [(0x8000, 0x89), (0x8001, 0x77)])) ended
      = some (.faulted, some (.unsupportedAddressingMode .sta .immediate), 0x8000, 0x01, 0x02) ∧
    after (stepWith { Config.standard with descTable := ⟨0xEA, ⟨.lda, .implicit⟩⟩ :: standardDescTable }
      (st 0 0 0 0 [(0x8000, 0xEA)])) ended
      = some (.faulted, some (.unsupportedAddressingMode .lda .implicit), 0x8000, 0, 0) := by decide

/-- V-F6: no step from HALTED or FAULTED. -/
theorem test_no_step_when_over :
    after (step { State.reset with run := .halted }) ended = none ∧
    after (step { State.reset with run := .faulted, fault := some (.unknownOpcode 0) }) ended = none := by decide

/-- The codes of D13. -/
theorem test_fault_codes :
    (FaultRecord.unknownOpcode 0xEA).code = 1 ∧ (FaultRecord.unsupportedAddressingMode .sta .immediate).code = 2 ∧
    State.reset.faultCode = 0 := by decide

/-! ### The engine at other parameters -/

/-- V-A1: Zero Page,Y wraps in page 0. -/
theorem test_zeroPageY_under_another_table :
    after (stepWith { Config.standard with descTable := [⟨0xB6, ⟨.lda, .zeroPageY⟩⟩] }
      (st 0 0 0x20 0 [(0x8000, 0xB6), (0x8001, 0xF0), (0x0010, 0x9A)])) apc = some (0x9A, 0x80, 0x8002) := by decide

/-- P6 under `ZP_POINTER_WRAP`: the high byte comes from 0x0000. -/
theorem test_pointer_wrap :
    after (stepWith { Config.standard with zpPointerWrap := true } (st 0 0 1 0 [(0x8000, 0xA1), (0x8001, 0xFF), (0x00FF, 0x10),
      (0x0100, 0x20), (0x0000, 0x30), (0x2010, 0xAB), (0x3010, 0xEE)])) apc = some (0xEE, 0x80, 0x8002) := by decide

/-- P3 without `PRESENT_ON_STORE`: the byte is stored and stays absent. -/
theorem test_store_without_presence :
    after (stepWith { Config.standard with presentOnStore := false }
      (st 0xA9 0 0 0 [(0x8000, 0x8D), (0x8001, 0x05), (0x8002, 0x80)])) (store 0x8005)
      = some (0xA9, 0x00, 0x8003, 0xA9, false) := by decide

/-- R53: the transactions of `LDA ($20,X)`. -/
theorem test_bus_trace :
    busTrace Config.standard (st 0 0x04 0 0 [(0x8000, 0xA1), (0x8001, 0x20), (0x0025, 0x40), (0x4000, 0x7F)])
      = [.presence 0x8000, .read 0x8000, .read 0x8001, .read 0x0024, .read 0x0025, .read 0x4000] := by decide

/-- R150, R152: the loader. -/
theorem test_loader :
    (standardLaunch ⟨0, 0, 0, 0, 0⟩ [0xA9, 0x00]).map (fun s => (s.mem, s.present)) = some ([(0x8000, 0xA9)], [0x8000, 0x8001]) := by
  decide

/-! ### Witnesses: states and operands that meet the hypotheses of the statements -/

theorem witness_DecodeOfEncodeIsTheInstruction : (Instr.ldaImmediate 0xAA).wf = true := by decide
theorem witness_EncodeOfDecodedIsTheBytes : decode [0xA9, 0xAA, 0x8D] = .ok (.ldaImmediate 0xAA, [0x8D]) := by decide

/-- A machine about to fetch the byte `b`. -/
def at8000 (b : Byte) : State := st 0x11 0x04 0x20 0x34 [(0x8000, b), (0x8001, 0x20), (0x8002, 0x40)]

theorem witness_LdaImmediateStep : AtOpcode (at8000 0xA9) 0xA9 := ⟨by decide, by decide, by decide⟩
theorem witness_LdaZeroPageStep : AtOpcode (at8000 0xA5) 0xA5 := ⟨by decide, by decide, by decide⟩
theorem witness_LdaZeroPageXStep : AtOpcode (at8000 0xB5) 0xB5 := ⟨by decide, by decide, by decide⟩
theorem witness_LdaAbsoluteStep : AtOpcode (at8000 0xAD) 0xAD := ⟨by decide, by decide, by decide⟩
theorem witness_LdaAbsoluteXStep : AtOpcode (at8000 0xBD) 0xBD := ⟨by decide, by decide, by decide⟩
theorem witness_LdaAbsoluteYStep : AtOpcode (at8000 0xB9) 0xB9 := ⟨by decide, by decide, by decide⟩
theorem witness_LdaIndirectXStep : AtOpcode (at8000 0xA1) 0xA1 := ⟨by decide, by decide, by decide⟩
theorem witness_LdaIndirectYStep : AtOpcode (at8000 0xB1) 0xB1 := ⟨by decide, by decide, by decide⟩
theorem witness_StaZeroPageStep : AtOpcode (at8000 0x85) 0x85 := ⟨by decide, by decide, by decide⟩
theorem witness_StaZeroPageXStep : AtOpcode (at8000 0x95) 0x95 := ⟨by decide, by decide, by decide⟩
theorem witness_StaAbsoluteStep : AtOpcode (at8000 0x8D) 0x8D := ⟨by decide, by decide, by decide⟩
theorem witness_StaAbsoluteXStep : AtOpcode (at8000 0x9D) 0x9D := ⟨by decide, by decide, by decide⟩
theorem witness_StaAbsoluteYStep : AtOpcode (at8000 0x99) 0x99 := ⟨by decide, by decide, by decide⟩
theorem witness_StaIndirectXStep : AtOpcode (at8000 0x81) 0x81 := ⟨by decide, by decide, by decide⟩
theorem witness_StaIndirectYStep : AtOpcode (at8000 0x91) 0x91 := ⟨by decide, by decide, by decide⟩

theorem witness_EveryInstructionsFrame :
    exec (.staZeroPage 0x10) (at8000 0x85) = .next ((at8000 0x85).storeAccumulator 2 0x0010) ∧
    storeAddr (.staZeroPage 0x10) (at8000 0x85) = some 0x0010 ∧
    exec (.ldaImmediate 0) (at8000 0xA9) = .next ((at8000 0xA9).loadAccumulator 2 0) ∧
    storeAddr (.ldaImmediate 0) (at8000 0xA9) = none := ⟨rfl, by decide, rfl, by decide⟩

theorem witness_LoadFlagsAndRoundTrip :
    (Instr.ldaImmediate 0x80).operation = .lda ∧
    exec (.ldaImmediate 0x80) State.reset = .next (State.reset.loadAccumulator 2 0x80) := ⟨rfl, rfl⟩

/-- Both clauses: the byte stored at the very next opcode address has no descriptor, or is LDA Immediate. -/
theorem witness_NextFetchSeesTheStore :
    ∀ a ∈ [(0x00 : Byte), 0xA9], (st a 0 0 0 []).run = .running ∧
      exec (.staAbsolute 0x8003) (st a 0 0 0 []) = .next ((st a 0 0 0 []).storeAccumulator 3 0x8003) ∧
      storeAddr (.staAbsolute 0x8003) (st a 0 0 0 []) = some ((st a 0 0 0 []).storeAccumulator 3 0x8003).pc ∧
      (a ∉ knownOpcodes ∨ a = 0xA9) := by
  intro a _
  refine ⟨rfl, rfl, by rfl, ?_⟩
  revert a
  decide

theorem witness_SetZNWritesTwoBits : Config.standard.zBit ≠ Config.standard.nBit := by decide

/-- The ends of each range of the table, no value in two of them. -/
theorem witness_SetZNOutcomeTable :
    Config.standard.zBit ≠ Config.standard.nBit ∧ (0x00 : Byte).toNat = 0 ∧
    (∀ v ∈ [(0x01 : Byte), 0x7F], 1 ≤ v.toNat ∧ v.toNat ≤ 127) ∧ (∀ v ∈ [(0x80 : Byte), 0xFF], 128 ≤ v.toNat) := by decide

theorem witness_WriteByteStoresAndMarks :
    Config.standard.presentOnStore = true ∧ ({ Config.standard with presentOnStore := false } : Config).presentOnStore = false ∧
    (0xFFFF : Addr) ≠ 0x0000 := by decide

theorem witness_AbsentReadsZeroAndNeverHalts :
    (at8000 0xAD).memoryInv = true ∧ (at8000 0xAD).isPresent 0xFFFF = false ∧ (at8000 0xAD).run = .running ∧
    (at8000 0xAD).isPresent (at8000 0xAD).pc = true ∧ (at8000 0xAD).readByte (at8000 0xAD).pc ∈ knownOpcodes := by decide

/-- Two memories built in different orders meet the premises. -/
theorem witness_CanonicalPlanesAreEqualData :
    Memory.wf (Memory.write (Memory.write [] 0xFFFF 1) 0x0000 2) = true ∧
    Memory.write (Memory.write [] 0xFFFF 1) 0x0000 2 = Memory.write (Memory.write [] 0x0000 2) 0xFFFF 1 ∧
    Presence.wf (Presence.mark (Presence.mark [] 0xFFFF) 0x0000) = true := by decide

/-- An absent operand byte, and rows of the default table. -/
theorem witness_ImmediateAndImplicitResolve :
    State.reset.memoryInv = true ∧ State.reset.isPresent State.reset.pc = false ∧
    Config.standard.desc 0xA9 = some ⟨.lda, .immediate⟩ := by decide

theorem witness_ZeroPageFamilyResolves : Config.standard.desc 0x95 = some ⟨.sta, .zeroPageX⟩ := by decide

theorem witness_PointerReadUnderBothReadings :
    (0xFE : Byte).toNat ≤ 0xFE ∧ Config.standard.zpPointerWrap = false ∧
    ({ Config.standard with zpPointerWrap := true } : Config).zpPointerWrap = true := by decide

theorem witness_AbsentPcHalts : State.reset.run = .running ∧ State.reset.isPresent State.reset.pc = false := by decide

theorem witness_UnknownOpcodeFaults : AtOpcode (at8000 0x89) 0x89 ∧ (0x89 : Byte) ∉ knownOpcodes :=
  ⟨⟨by decide, by decide, by decide⟩, by decide⟩

/-- A table that gives a byte the descriptor `(op, mode)`. -/
def tableOf (op : Operation) (mode : Mode) : Config := { Config.standard with descTable := [⟨0x89, ⟨op, mode⟩⟩] }

theorem witness_UnsupportedModeFaults :
    (at8000 0x89).run = .running ∧ (at8000 0x89).isPresent (at8000 0x89).pc = true ∧
    (tableOf .sta .immediate).desc ((at8000 0x89).readByte (at8000 0x89).pc) = some ⟨.sta, .immediate⟩ ∧
    (tableOf .sta .implicit).desc ((at8000 0x89).readByte (at8000 0x89).pc) = some ⟨.sta, .implicit⟩ ∧
    (tableOf .lda .implicit).desc ((at8000 0x89).readByte (at8000 0x89).pc) = some ⟨.lda, .implicit⟩ ∧
    Config.standard.desc 0xA9 = some ⟨.lda, .immediate⟩ := by decide

/-- Both kinds of fault are entered. -/
theorem witness_FaultEntryWritesTwoThings :
    after (stepWith Config.standard (at8000 0x89)) (·.run) = some .faulted ∧
    after (stepWith (tableOf .sta .immediate) (at8000 0x89)) (·.run) = some .faulted := by decide

theorem witness_StepIsEnabledExactlyWhenRunning :
    State.reset.run = .running ∧ ({ State.reset with run := .halted } : State).run ≠ .running ∧
    ({ State.reset with run := .faulted } : State).run ≠ .running := by decide

/-- One state for each of the four clauses. -/
theorem witness_TestsOfAStepInOrder :
    (State.reset.run = .running ∧ State.reset.isPresent State.reset.pc = false) ∧
    ((at8000 0x89).isPresent (at8000 0x89).pc = true ∧ Config.standard.desc ((at8000 0x89).readByte (at8000 0x89).pc) = none) ∧
    ((tableOf .sta .immediate).desc ((at8000 0x89).readByte (at8000 0x89).pc) = some ⟨.sta, .immediate⟩ ∧
      accepts .sta .immediate = false) ∧
    (Config.standard.desc ((at8000 0xA9).readByte (at8000 0xA9).pc) = some ⟨.lda, .immediate⟩ ∧ accepts .lda .immediate = true) := by
  decide

theorem witness_PcAdvancesByTheLength :
    after (stepWith Config.standard (at8000 0xAD)) (·.run) = some .running ∧
    after (stepWith Config.standard State.reset) (·.run) = some .halted := by decide

theorem witness_ZeroPageYUnderAnotherTable :
    (tableOf .lda .zeroPageY).zBit ≠ (tableOf .lda .zeroPageY).nBit ∧ (tableOf .lda .zeroPageY).presentOnStore = true ∧
    (tableOf .lda .zeroPageY).desc ((at8000 0x89).readByte (at8000 0x89).pc) = some ⟨.lda, .zeroPageY⟩ ∧
    (tableOf .sta .zeroPageY).desc ((at8000 0x89).readByte (at8000 0x89).pc) = some ⟨.sta, .zeroPageY⟩ ∧
    (at8000 0x89).run = .running ∧ (at8000 0x89).isPresent (at8000 0x89).pc = true := by decide

theorem witness_StepRunsTheDecodedInstruction :
    decode [operandByte (at8000 0x8D) 0, operandByte (at8000 0x8D) 1, operandByte (at8000 0x8D) 2]
      = .ok (.staAbsolute 0x4020, []) ∧ (at8000 0x8D).run = .running ∧ (at8000 0x8D).isPresent (at8000 0x8D).pc = true := by decide

/-- The bytes of an instruction at PC = 0xFFFE, the wrap included. -/
theorem witness_StepRunsTheEncodedInstruction :
    let s : State := { st 0 0 0 0 [(0xFFFE, 0xAD), (0xFFFF, 0x02), (0x0000, 0x00)] with pc := 0xFFFE }
    s.run = .running ∧ s.isPresent s.pc = true ∧
    [operandByte s 0, operandByte s 1, operandByte s 2] = encode (.ldaAbsolute 0x0002) := by decide

/-- A step that changes A and PC, one P, one memory, one FAULT and RUN, one RUN alone. -/
theorem witness_StateChangesOnlyAsTabulated :
    after (step (at8000 0xA9)) (fun t => (t.a != (at8000 0xA9).a, t.pc != (at8000 0xA9).pc)) = some (true, true) ∧
    after (step (at8000 0xAD)) (fun t => t.p != (at8000 0xAD).p) = some true ∧
    after (step (at8000 0x8D)) (fun t => t.readByte 0x4020 != (at8000 0x8D).readByte 0x4020) = some true ∧
    after (step (at8000 0x89)) (fun t => (t.fault != (at8000 0x89).fault, t.run != (at8000 0x89).run)) = some (true, true) ∧
    after (step State.reset) (fun t => (t.fault != State.reset.fault, t.run != State.reset.run)) = some (false, true) := by decide

theorem witness_ReservedBitsKeptForTheWholeRun : (runState 2 (at8000 0xAD)).isSome = true := by decide
theorem witness_IndexesAndStackPointerConstantOnARun :
    (runState 1 (at8000 0x85)).isSome = true ∧ (at8000 0x85).isPresent 0x8000 = true := by decide

theorem witness_UnreadStateDoesNotMatter :
    Presence.has [0x8000, 0x9000] (at8000 0xA9).pc = (at8000 0xA9).present.has (at8000 0xA9).pc := by decide

theorem witness_InvariantHoldsAtLaunch : launchMemoryOk [(0x24, 0x40)] [0x23, 0x24] = true := by decide

theorem witness_EveryStepKeepsTheInvariant :
    (at8000 0x8D).Inv Config.standard = true ∧ after (step (at8000 0x8D)) (·.run) = some .running := by decide

/-- A configuration for each clause; in the second a store ends what the first clause alone keeps. -/
theorem witness_EveryEngineStepKeepsTheInvariant :
    let unmarked : Config := { Config.standard with presentOnStore := false }
    (tableOf .sta .immediate).presentOnStore = true ∧ (at8000 0x89).Inv (tableOf .sta .immediate) = true ∧
    after (stepWith (tableOf .sta .immediate) (at8000 0x89)) (·.run) = some .faulted ∧
    (at8000 0x8D).planesWf = true ∧ (at8000 0x8D).endInv unmarked = true ∧
    after (stepWith unmarked (at8000 0x8D)) (fun t => (t.planesWf, t.memoryInv)) = some (true, false) := by decide

/-- The least and the greatest image, and an address of each clause's range at its ends. -/
theorem witness_StandardLoaderPlacesTheImage :
    ([] : List Byte).length ≤ 32768 ∧ (List.replicate 32768 (0 : Byte)).length ≤ 32768 ∧
    (standardLaunch ⟨0, 0, 0, 0, 0⟩ [0xA9, 0x00]).isSome = true ∧
    (0x7FFF : Addr).toNat < 0x8000 ∧ 0x8000 + [(0xA9 : Byte), 0x00].length ≤ (0x8002 : Addr).toNat := by
  refine ⟨Nat.zero_le _, List.length_replicate.le, ?_⟩
  decide

theorem witness_SnapshotOnTerminationOnly :
    (at8000 0xA9).run = .running ∧ ({ State.reset with run := .halted } : State).run = .halted ∧
    ({ State.reset with run := .faulted } : State).run = .faulted := by decide

theorem witness_BusTransactionsAccountForMemory :
    after (stepWith Config.standard (at8000 0x8D)) (fun t => t.mem != (at8000 0x8D).mem) = some true := by decide

/-- A step whose last transaction is a write. -/
theorem witness_BusTransactionsOfOneStep :
    (at8000 0x8D).run = .running ∧ busTrace Config.standard (at8000 0x8D) =
      [.presence 0x8000, .read 0x8000, .read 0x8001, .read 0x8002] ++ [.write 0x4020 0x11] := by decide

end Sys2Proof.Tests
end

section
/-! SUPPORT. Rules about the state's operations that the proofs below share: the bits a flag update leaves alone, the frame of a
store, the opcodes without a descriptor, and when the invariant holds in each run state. -/

namespace Sys2Proof.Machine

open Sys2Proof.Claims

/-! ### Reserved bits of P (R26) -/

theorem forceBit_getLsbD_other (p : Byte) (i : Fin 8) (b : Bool) {n : Nat} (h8 : n < 8) (hn : n ≠ i.val) :
    (forceBit p i b).getLsbD n = p.getLsbD n := by
  have hbit : (1#8 <<< i.val).getLsbD n = false := by
    simp [← BitVec.twoPow_eq, BitVec.getLsbD_twoPow, hn.symm]
  cases b with
  | false => simp only [forceBit, Bool.false_eq_true, if_false, BitVec.getLsbD_and, BitVec.getLsbD_not, hbit, h8]; simp
  | true => simp only [forceBit, if_true, BitVec.getLsbD_or, hbit, Bool.or_false]

theorem setZN_getLsbD_other (c : Config) (v p : Byte) {n : Nat} (h8 : n < 8) (hz : n ≠ c.zBit.val) (hn : n ≠ c.nBit.val) :
    (setZN c v p).getLsbD n = p.getLsbD n := by
  rw [setZN, forceBit_getLsbD_other _ _ _ h8 hn, forceBit_getLsbD_other _ _ _ h8 hz]

/-! ### A completed store -/

theorem State.storeAccumulator_readByte_other (s : State) (len : Nat) {ea b : Addr} (h : b ≠ ea) :
    (s.storeAccumulator len ea).readByte b = s.readByte b := Memory.read_write_other s.mem s.a h

@[simp] theorem State.storeAccumulator_isPresent (s : State) (len : Nat) (ea b : Addr) :
    (s.storeAccumulator len ea).isPresent b = (decide (b = ea) || s.isPresent b) := Presence.has_mark s.present ea b

/-! ### An opcode without a descriptor (R62) -/

theorem opcodeRow_eq_none_iff (b : Byte) : opcodeRow b = none ↔ b ∉ knownOpcodes := by
  have hk : knownOpcodes = opcodeTable.map (·.1) := rfl
  simp only [opcodeRow, hk, Option.map_eq_none_iff, List.find?_eq_none, List.mem_map, beq_iff_eq, not_exists, not_and]

theorem State.fetchInstr_eq_none (s : State) : s.fetchInstr = none ↔ opcodeRow (s.readByte s.pc) = none :=
  decodeWindow_eq_none

/-! ### The invariant, by run state -/

theorem State.endInv_running {c : Config} {s : State} (h : s.run = .running) : s.endInv c = true ↔ s.fault = none := by
  cases hf : s.fault <;> simp [State.endInv, h, hf]

theorem State.endInv_halt {c : Config} {s : State} (hp : s.isPresent s.pc = false) (hf : s.fault = none) :
    s.halt.endInv c = true := by
  simp [State.endInv, hf, hp]

theorem State.endInv_takeFault_unknownOpcode {c : Config} {s : State} (hp : s.isPresent s.pc = true)
    (hd : c.desc (s.readByte s.pc) = none) : (s.takeFault (.unknownOpcode (s.readByte s.pc))).endInv c = true := by
  simp [State.endInv, hp, hd]

/-- A store that marks its address keeps both planes canonical and every listed byte present (R38, R151). -/
theorem launchMemoryOk_write_mark {m : Memory} {q : Presence} (a : Addr) (v : Byte) (h : launchMemoryOk m q = true) :
    launchMemoryOk (m.write a v) (q.mark a) = true := by
  simp only [launchMemoryOk, Bool.and_eq_true, List.all_eq_true, List.contains_iff_mem] at h ⊢
  obtain ⟨⟨hm, hq⟩, hlisted⟩ := h
  refine ⟨⟨Memory.wf_write a v hm, Presence.wf_mark a hq⟩, fun c hc => Presence.mem_mark.mpr ?_⟩
  exact (Memory.mem_write hc).imp_right (hlisted c)

end Sys2Proof.Machine
end

section
/-! SUPPORT. What a step can do, as one relation with a constructor per outcome (R140), so that a proof about steps is a case
analysis over it. -/

namespace Sys2Proof.Machine

/-- The next states of `s`: a halt (R69), the fault of an unknown opcode (R132), a completed load (R100) or store (R110). -/
inductive StepEffect (s : State) : State → Prop
  | halt (absent : s.isPresent s.pc = false) : StepEffect s s.halt
  | unknownOpcode (present : s.isPresent s.pc = true) (unknown : opcodeRow (s.readByte s.pc) = none) :
      StepEffect s (s.takeFault (.unknownOpcode (s.readByte s.pc)))
  | load (i : Instr) (v : Byte) (present : s.isPresent s.pc = true) (fetched : s.fetchInstr = some i)
      (isLoad : i.operation = .lda) : StepEffect s (s.loadAccumulator i.length v)
  | store (i : Instr) (ea : Addr) (present : s.isPresent s.pc = true) (fetched : s.fetchInstr = some i)
      (isStore : i.operation = .sta) (addr : storeAddr i s = some ea) : StepEffect s (s.storeAccumulator i.length ea)

/-- `exec_cases` of an answered next state. -/
theorem exec_next_cases {i : Instr} {s t : State} (h : exec i s = .next t) :
    (i.operation = .lda ∧ storeAddr i s = none ∧ ∃ v, t = s.loadAccumulator i.length v) ∨
    (i.operation = .sta ∧ ∃ ea, storeAddr i s = some ea ∧ t = s.storeAccumulator i.length ea) := by
  obtain ⟨hop, haddr, v, he⟩ | ⟨hop, ea, haddr, he⟩ := exec_cases i s <;> cases h.symm.trans he
  · exact .inl ⟨hop, haddr, v, rfl⟩
  · exact .inr ⟨hop, ea, haddr, rfl⟩

theorem step_running {s t : State} (h : step s = .next t) : s.run = .running := (step_cases h).1

theorem step_effect {s t : State} (h : step s = .next t) : StepEffect s t := by
  obtain ⟨-, ⟨hp, rfl⟩ | ⟨hp, hf, rfl⟩ | ⟨i, hp, hf, he⟩⟩ := step_cases h
  · exact .halt hp
  · exact .unknownOpcode hp (s.fetchInstr_eq_none.mp hf)
  · obtain ⟨hop, -, v, rfl⟩ | ⟨hop, ea, haddr, rfl⟩ := exec_next_cases he
    · exact .load i v hp hf hop
    · exact .store i ea hp hf hop haddr

/-- An accepted descriptor leaves PC past the instruction and RUN alone (R21, R76). -/
theorem State.dispatch_pc_run {c : Config} (s : State) {d : Descriptor} (h : accepts d.op d.mode = true) :
    (s.dispatch c d).pc = s.pc + BitVec.ofNat 16 (1 + d.mode.operandBytes) ∧ (s.dispatch c d).run = s.run := by
  obtain ⟨-, v, he⟩ | ⟨-, ea, -, he⟩ := State.dispatch_cases c s d h <;> rw [he] <;> exact ⟨rfl, rfl⟩

/-- No step writes a bit of P other than Zero and Negative (R26). -/
theorem step_reservedBits {s t : State} (h : step s = .next t) {n : Nat} (h8 : n < 8) (hz : n ≠ Config.standard.zBit.val)
    (hn : n ≠ Config.standard.nBit.val) : t.p.getLsbD n = s.p.getLsbD n := by
  cases step_effect h with
  | load => exact setZN_getLsbD_other _ _ _ h8 hz hn
  | _ => rfl

/-- No step writes X, Y or SP (R16, R17, R22). -/
theorem step_indexes {s t : State} (h : step s = .next t) : t.x = s.x ∧ t.y = s.y ∧ t.sp = s.sp := by
  cases step_effect h <;> exact ⟨rfl, rfl, rfl⟩

/-- A presence bit once true stays true (R28). -/
theorem step_isPresent_mono {s t : State} (h : step s = .next t) {a : Addr} (ha : s.isPresent a = true) :
    t.isPresent a = true := by
  cases step_effect h with
  | store => simp [ha]
  | _ => exact ha

end Sys2Proof.Machine
end

section
/-! The statements about the machine's state (10_state.md): O50, O51, O54, O22, O44, O49. -/

namespace Sys2Proof.Machine

open Sys2Proof.Claims

/-- Settles O50: no step writes a reserved bit, carried along the run. -/
theorem reservedBitsKeptForTheWholeRun : Obligations.ReservedBitsKeptForTheWholeRun := by
  apply run_induction (P := fun s t => ∀ n, n < 8 → n ≠ _ → n ≠ _ → t.p.getLsbD n = s.p.getLsbD n)
  · exact fun _ _ _ _ _ => rfl
  · exact fun s t u h ih n h8 hz hn => (ih n h8 hz hn).trans (step_reservedBits h h8 hz hn)

/-- Settles O51: no step writes X, Y or SP or clears a presence bit, carried along the run. -/
theorem indexesAndStackPointerConstantOnARun : Obligations.IndexesAndStackPointerConstantOnARun := by
  apply run_induction
    (P := fun s t => t.x = s.x ∧ t.y = s.y ∧ t.sp = s.sp ∧ ∀ a, s.isPresent a = true → t.isPresent a = true)
  · exact fun _ => ⟨rfl, rfl, rfl, fun _ => id⟩
  · intro s t u h ⟨ihx, ihy, ihsp, ihpresent⟩
    obtain ⟨hx, hy, hsp⟩ := step_indexes h
    exact ⟨ihx.trans hx, ihy.trans hy, ihsp.trans hsp, fun a ha => ihpresent a (step_isPresent_mono h ha)⟩

/-- Settles O54: a halt and a fault leave memory and record how the run ended; a load leaves memory; a store marks what it writes. -/
theorem everyStepKeepsTheInvariant : Obligations.EveryStepKeepsTheInvariant := by
  intro s t hinv h
  have hrun := step_running h
  obtain ⟨hmem, hend⟩ := Bool.and_eq_true_iff.mp hinv
  have hfault : s.fault = none := (State.endInv_running hrun).mp hend
  refine Bool.and_eq_true_iff.mpr ?_
  cases step_effect h with
  | halt absent => exact ⟨hmem, State.endInv_halt absent hfault⟩
  | unknownOpcode present unknown =>
    exact ⟨hmem, State.endInv_takeFault_unknownOpcode present (by rw [standard_desc, unknown]; rfl)⟩
  | load i v => exact ⟨hmem, (State.endInv_running (s := s.loadAccumulator i.length v) hrun).mpr hfault⟩
  | store i ea =>
    exact ⟨launchMemoryOk_write_mark ea s.a hmem,
      (State.endInv_running (s := s.storeAccumulator i.length ea) hrun).mpr hfault⟩

/-- Settles O22, by the two ways an instruction completes. -/
theorem everyInstructionsFrame : Obligations.EveryInstructionsFrame := by
  intro i s t h
  obtain ⟨hop, haddr, v, rfl⟩ | ⟨hop, ea, haddr, rfl⟩ := exec_next_cases h
  · refine ⟨rfl, rfl, rfl, rfl, rfl, fun n h8 hz hn => setZN_getLsbD_other _ _ _ h8 hz hn, ?_, fun _ => haddr,
      fun _ _ => ⟨rfl, rfl⟩, fun _ _ _ _ => ⟨rfl, rfl⟩⟩
    simp [hop]
  · refine ⟨rfl, rfl, rfl, rfl, rfl, fun _ _ _ _ => rfl, fun _ => ⟨rfl, rfl⟩, by simp [hop], by simp [haddr], ?_⟩
    intro ea' haddr' b hb
    obtain rfl : ea = ea' := Option.some.inj (haddr.symm.trans haddr')
    exact ⟨s.storeAccumulator_readByte_other _ hb, by simp [hb]⟩

/-- Settles O44: an accepted descriptor moves PC past the instruction and stays RUNNING; the other outcomes leave PC and do not. -/
theorem pcAdvancesByTheLength : Obligations.PcAdvancesByTheLength := by
  intro c s t h
  obtain ⟨hrun, ⟨-, rfl⟩ | ⟨-, -, rfl⟩ | ⟨d, -, -, -, rfl⟩ | ⟨d, -, hdesc, hacc, rfl⟩⟩ := stepWith_cases h
  · exact ⟨nofun, fun _ => rfl⟩
  · exact ⟨nofun, fun _ => rfl⟩
  · exact ⟨nofun, fun _ => rfl⟩
  · obtain ⟨hpc, hrun'⟩ := s.dispatch_pc_run hacc
    exact ⟨fun _ => ⟨d, hdesc, by simp [hpc]⟩, fun hne => absurd (hrun'.trans hrun) hne⟩

/-- Settles O49, by the four outcomes of a step. -/
theorem stateChangesOnlyAsTabulated : Obligations.StateChangesOnlyAsTabulated := by
  intro s t h
  have hrun := step_running h
  obtain ⟨hx, hy, hsp⟩ := step_indexes h
  refine ⟨hx, hy, hsp, fun n h8 hz hn => step_reservedBits h h8 hz hn, ?_⟩
  cases step_effect h with
  | halt absent => simp [absent]
  | unknownOpcode present unknown =>
    have hentry : UnknownOpcodeEntry s (s.takeFault (.unknownOpcode (s.readByte s.pc))) :=
      ⟨present, (opcodeRow_eq_none_iff _).mp unknown, rfl⟩
    simp [hentry]
  | load i v present fetched isLoad =>
    exact ⟨fun _ => ⟨i, fetched, isLoad, rfl⟩, by simp, fun _ => ⟨i, present, fetched, by simp, hrun⟩, by simp, by simp⟩
  | store i ea present fetched isStore addr =>
    refine ⟨by simp, fun b hb => ?_, ?_, by simp, by simp⟩
    · obtain rfl : b = ea := by
        by_contra hne
        simp [s.storeAccumulator_readByte_other _ hne, hne] at hb
      exact ⟨i, fetched, isStore, addr, rfl⟩
    · exact fun _ => ⟨i, present, fetched, by simp, hrun⟩

end Sys2Proof.Machine
end

section
/-! SP, P and presence away from PC are read by no step (10_state.md): O52. -/

namespace Sys2Proof.Machine

open Sys2Proof.Claims

/-- `s` with the fields no instruction reads at any other value. -/
def State.withUnread (s : State) (sp p : Byte) (q : Presence) : State := { s with sp := sp, p := p, present := q }

/-- Whatever the unread fields hold, an instruction loads the same value or stores at the same address. -/
theorem exec_withUnread (i : Instr) (s : State) (sp p : Byte) (q : Presence) :
    (∃ v, exec i (s.withUnread sp p q) = .next ((s.withUnread sp p q).loadAccumulator i.length v) ∧
      exec i s = .next (s.loadAccumulator i.length v)) ∨
    (∃ ea, exec i (s.withUnread sp p q) = .next ((s.withUnread sp p q).storeAccumulator i.length ea) ∧
      exec i s = .next (s.storeAccumulator i.length ea)) := by
  cases i with
  | ldaImmediate | ldaZeroPage | ldaZeroPageX | ldaAbsolute | ldaAbsoluteX | ldaAbsoluteY | ldaIndirectX | ldaIndirectY =>
    exact .inl ⟨_, rfl, rfl⟩
  | staZeroPage | staZeroPageX | staAbsolute | staAbsoluteX | staAbsoluteY | staIndirectX | staIndirectY =>
    exact .inr ⟨_, rfl, rfl⟩

/-- Each of the four updates a step can end in gives, from `s'` and seen by `f`, what it gives from `s`, seen by `g`. -/
structure UpdatesAgree (f g : State → State) (s' s : State) : Prop where
  halt      : f s'.halt = g s.halt
  takeFault : ∀ r, f (s'.takeFault r) = g (s.takeFault r)
  load      : ∀ len v, f (s'.loadAccumulator len v) = g (s.loadAccumulator len v)
  store     : ∀ len ea, f (s'.storeAccumulator len ea) = g (s.storeAccumulator len ea)

/-- A step chooses its update by what it reads, so the unread fields show only in what the update leaves of them. -/
theorem step_withUnread {f g : State → State} {s : State} {sp p : Byte} {q : Presence} (hq : q.has s.pc = s.isPresent s.pc)
    (h : UpdatesAgree f g (s.withUnread sp p q) s) : onNext f (step (s.withUnread sp p q)) = onNext g (step s) := by
  have hrun : (s.withUnread sp p q).run = s.run := rfl
  have hpresent : (s.withUnread sp p q).isPresent (s.withUnread sp p q).pc = s.isPresent s.pc := hq
  have hfetch : (s.withUnread sp p q).fetchInstr = s.fetchInstr := rfl
  have hbyte : (s.withUnread sp p q).readByte (s.withUnread sp p q).pc = s.readByte s.pc := rfl
  simp only [step, hrun, hpresent, hfetch, hbyte]
  cases s.run with
  | halted => rfl
  | faulted => rfl
  | running =>
    cases s.isPresent s.pc with
    | false => exact congrArg _ h.halt
    | true =>
      cases s.fetchInstr with
      | none => exact congrArg _ (h.takeFault _)
      | some i =>
        obtain ⟨v, he', he⟩ | ⟨ea, he', he⟩ := exec_withUnread i s sp p q
        · simp [he', he, onNext, h.load]
        · simp [he', he, onNext, h.store]

theorem onNext_id (o : Host.Outcome State Fault Refusal) : onNext id o = o := by cases o <;> rfl

/-- Settles O52: SP, P and presence are unread fields, and each is kept or overwritten alike by all four updates. -/
theorem unreadStateDoesNotMatter : Obligations.UnreadStateDoesNotMatter := by
  intro s
  refine ⟨fun v => ?_, fun v => ?_, fun q hq => ?_⟩
  · rw [← onNext_id (step { s with sp := v })]
    exact step_withUnread (sp := v) (p := s.p) (q := s.present) rfl
      ⟨rfl, fun _ => rfl, fun _ _ => rfl, fun _ _ => rfl⟩
  · exact step_withUnread (sp := s.sp) (p := v) (q := s.present) rfl
      ⟨rfl, fun _ => rfl, fun _ _ => rfl, fun _ _ => rfl⟩
  · exact step_withUnread (sp := s.sp) (p := s.p) (q := q) hq
      ⟨rfl, fun _ => rfl, fun _ _ => rfl, fun _ _ => rfl⟩

end Sys2Proof.Machine
end

section
/-! SUPPORT. Rules the statements about memory share: the addresses the claims compute, the two flags of a load, the steps of a
machine at a present opcode, and what a step asks of the bus. -/

namespace Sys2Proof.Machine

open Sys2Proof.Claims

/-! ### Addresses (R7, R35) -/

@[simp] theorem addrOf_toNat_add (a : Addr) (n : Nat) : addrOf (a.toNat + n) = a + BitVec.ofNat 16 n := by
  simp [addrOf, BitVec.ofNat_add]

@[simp] theorem addrOf_mod (n : Nat) : addrOf (n % 65536) = addrOf n :=
  BitVec.eq_of_toNat_eq (by simp [addrOf])

/-! ### The flags of a completed load (R119) -/

theorem forceBit_getLsbD_same (p : Byte) (i : Fin 8) (b : Bool) : (forceBit p i b).getLsbD i = b := by
  have hbit : (1#8 <<< i.val).getLsbD i = true := by
    simp [← BitVec.twoPow_eq]
  cases b with
  | false => simp only [forceBit, Bool.false_eq_true, if_false, BitVec.getLsbD_and, BitVec.getLsbD_not, hbit]; simp
  | true => simp only [forceBit, if_true, BitVec.getLsbD_or, hbit, Bool.or_true]

theorem setZN_getLsbD_nBit (c : Config) (v p : Byte) : (setZN c v p).getLsbD c.nBit = v.msb :=
  forceBit_getLsbD_same _ _ _

theorem setZN_getLsbD_zBit {c : Config} (h : c.zBit ≠ c.nBit) (v p : Byte) : (setZN c v p).getLsbD c.zBit = (v == 0) := by
  rw [setZN, forceBit_getLsbD_other _ _ _ c.zBit.isLt (Fin.val_ne_of_ne h), forceBit_getLsbD_same]

/-- The machine's completed load is the claims' (R100, R119). -/
theorem State.loads_loadAccumulator (s : State) (len : Nat) (v : Byte) :
    Loads Config.standard s (s.loadAccumulator len v) len v := by
  refine ⟨rfl, ?zero, ?negative, fun i h8 hz hn => setZN_getLsbD_other _ _ _ h8 hz hn, by simp, rfl, rfl, rfl, fun _ => rfl,
    fun _ => rfl, rfl, rfl⟩
  case zero =>
    calc (s.loadAccumulator len v).zeroFlag Config.standard
        = (v == 0) := setZN_getLsbD_zBit (by decide) v s.p
      _ = decide (v.toNat = 0) := by rw [Bool.eq_iff_iff]; simp [BitVec.toNat_eq]
  case negative =>
    exact (setZN_getLsbD_nBit _ v s.p).trans (BitVec.msb_eq_decide v)

/-! ### A running machine at a present opcode (R70 to R74, R132) -/

theorem step_of_unknownOpcode {s : State} (hrun : s.run = .running) (hp : s.isPresent s.pc = true)
    (hb : s.readByte s.pc ∉ knownOpcodes) : step s = .next (s.takeFault (.unknownOpcode (s.readByte s.pc))) := by
  have hfetch : s.fetchInstr = none := s.fetchInstr_eq_none.mpr ((opcodeRow_eq_none_iff _).mpr hb)
  simp [step, hrun, hp, hfetch]

theorem step_eq_exec {s : State} {i : Instr} (hrun : s.run = .running) (hp : s.isPresent s.pc = true)
    (hfetch : s.fetchInstr = some i) : step s = exec i s := by
  simp [step, hrun, hp, hfetch]

/-! ### A completed store -/

@[simp] theorem State.storeAccumulator_readByte_same (s : State) (len : Nat) (ea : Addr) :
    (s.storeAccumulator len ea).readByte ea = s.a := Memory.read_write_same s.mem ea s.a

/-! ### The transactions of a step (R53) -/

/-- Every request of the list is a read of one byte. -/
def OnlyReads (l : List BusRequest) : Prop := ∀ r ∈ l, ∃ a, r = .read a

theorem OnlyReads.append {l l' : List BusRequest} (h : OnlyReads l) (h' : OnlyReads l') : OnlyReads (l ++ l') :=
  fun r hr => (List.mem_append.mp hr).elim (h r) (h' r)

theorem OnlyReads.presence_not_mem {l : List BusRequest} (h : OnlyReads l) (a : Addr) : BusRequest.presence a ∉ l :=
  fun hr => nomatch h _ hr

theorem OnlyReads.write_not_mem {l : List BusRequest} (h : OnlyReads l) (a : Addr) (v : Byte) : BusRequest.write a v ∉ l :=
  fun hr => nomatch h _ hr

/-- Reads leave memory alone (R36). -/
theorem OnlyReads.foldl_apply {l : List BusRequest} (h : OnlyReads l) (m : Memory) : l.foldl BusRequest.apply m = m := by
  induction l with
  | nil => rfl
  | cons r l ih =>
    obtain ⟨⟨a, rfl⟩, hl⟩ := List.forall_mem_cons.mp h
    exact ih hl

theorem State.operandReads_onlyReads (s : State) (mode : Mode) : OnlyReads (s.operandReads mode) := by
  intro r hr
  obtain ⟨k, -, rfl⟩ := List.mem_map.mp hr
  exact ⟨_, rfl⟩

theorem State.modePointerReads_onlyReads (c : Config) (s : State) (mode : Mode) : OnlyReads (s.modePointerReads c mode) := by
  cases mode <;> simp [OnlyReads, State.modePointerReads, pointerReads]

theorem State.dataAccess_onlyReads_of_lda (c : Config) (s : State) {d : Descriptor} (h : d.op = .lda) :
    OnlyReads (s.dataAccess c d) := by
  simp only [State.dataAccess, h]
  cases ((s.advancePc 1).resolve c d.mode .address).1 <;> simp [OnlyReads]

theorem State.dataAccess_of_sta {c : Config} {s : State} {d : Descriptor} {ea : Addr} (h : d.op = .sta)
    (hea : ((s.advancePc 1).resolve c d.mode .address).1 = .address ea) : s.dataAccess c d = [.write ea s.a] := by
  simp only [State.dataAccess, h, hea]

/-- The transactions of a step at `s` and the memory it leaves: the presence query at PC and reads, which change nothing, or
these and then one write of A. -/
inductive StepTraffic (s : State) : List BusRequest → Memory → Prop
  | reads {l : List BusRequest} (h : OnlyReads l) : StepTraffic s (.presence s.pc :: l) s.mem
  | write {l : List BusRequest} (h : OnlyReads l) (ea : Addr) :
      StepTraffic s (.presence s.pc :: l ++ [.write ea s.a]) (s.mem.write ea s.a)

theorem stepWith_traffic {c : Config} {s t : State} (h : stepWith c s = .next t) : StepTraffic s (busTrace c s) t.mem := by
  have fetch : OnlyReads [.read s.pc] := by simp [OnlyReads]
  obtain ⟨hrun, ⟨hp, rfl⟩ | ⟨hp, hdesc, rfl⟩ | ⟨d, hp, hdesc, hacc, rfl⟩ | ⟨d, hp, hdesc, hacc, rfl⟩⟩ := stepWith_cases h
  · have htrace : busTrace c s = [.presence s.pc] := by simp [busTrace, hrun, hp]
    exact htrace ▸ .reads (l := []) nofun
  · have htrace : busTrace c s = [.presence s.pc, .read s.pc] := by simp [busTrace, hrun, hp, hdesc]
    exact htrace ▸ .reads fetch
  · have htrace : busTrace c s = [.presence s.pc, .read s.pc] := by simp [busTrace, hrun, hp, hdesc, hacc]
    exact htrace ▸ .reads fetch
  · have htrace : busTrace c s =
        .presence s.pc :: ([.read s.pc] ++ (s.operandReads d.mode ++ s.modePointerReads c d.mode)) ++ s.dataAccess c d := by
      simp [busTrace, hrun, hp, hdesc, hacc]
    have hreads : OnlyReads ([.read s.pc] ++ (s.operandReads d.mode ++ s.modePointerReads c d.mode)) :=
      fetch.append ((s.operandReads_onlyReads _).append (s.modePointerReads_onlyReads c _))
    rw [htrace]
    obtain ⟨hop, v, he⟩ | ⟨hop, ea, hea, he⟩ := State.dispatch_cases c s d hacc <;> rw [he]
    · exact .reads (hreads.append (s.dataAccess_onlyReads_of_lda c hop))
    · rw [State.dataAccess_of_sta hop hea]
      exact .write hreads ea

theorem StepTraffic.foldl_apply {s : State} {l : List BusRequest} {m : Memory} (h : StepTraffic s l m) :
    l.foldl BusRequest.apply s.mem = m := by
  cases h with
  | reads h => exact h.foldl_apply s.mem
  | write h ea => simp [BusRequest.apply, h.foldl_apply]

theorem StepTraffic.presence_first {s : State} {l : List BusRequest} {m : Memory} (h : StepTraffic s l m) :
    ∃ rest, l = .presence s.pc :: rest ∧ ∀ a, BusRequest.presence a ∉ rest := by
  cases h with
  | reads h => exact ⟨_, rfl, h.presence_not_mem⟩
  | write h ea => exact ⟨_, rfl, fun a => by simp [h.presence_not_mem a]⟩

/-- A write before the last place would stand among the reads. -/
theorem StepTraffic.write_last {s : State} {before after : List BusRequest} {a : Addr} {v : Byte} {m : Memory}
    (h : StepTraffic s (before ++ .write a v :: after) m) : after = [] ∧ v = s.a := by
  generalize hl : before ++ .write a v :: after = l at h
  have hmem : BusRequest.write a v ∈ l := by simp [← hl]
  cases h with
  | reads h => simp [h.write_not_mem a v] at hmem
  | @write l' h ea =>
    obtain rfl | ⟨init, w, rfl⟩ := after.eq_nil_or_concat
    · obtain ⟨-, hw⟩ := List.append_inj' hl rfl
      cases hw
      exact ⟨rfl, rfl⟩
    · have hl : (before ++ .write a v :: init) ++ [w] = (.presence s.pc :: l') ++ [.write ea s.a] := by simpa using hl
      obtain ⟨hbefore, -⟩ := List.append_inj' hl rfl
      have : BusRequest.write a v ∈ BusRequest.presence s.pc :: l' := by simp [← hbefore]
      simp [h.write_not_mem a v] at this

/-- A RUNNING machine has a step (R78). -/
theorem exists_stepWith_of_running (c : Config) {s : State} (h : s.run = .running) : ∃ t, stepWith c s = .next t := by
  simp only [stepWith, h]
  cases s.isPresent s.pc with
  | false => exact ⟨_, rfl⟩
  | true => cases c.desc (s.readByte s.pc) <;> exact ⟨_, rfl⟩

end Sys2Proof.Machine
end

section
/-! SUPPORT. What a canonical plane holds is what reading it gives: its keys rise, and the value plane lists the bytes that do not
read as unlisted (R27, R28, R35). -/

namespace Sys2Proof.Machine

theorem Presence.wfFrom_bounds : ∀ {q : Presence} {lo : Nat}, Presence.wfFrom lo q = true → ∀ j ∈ q, lo ≤ j ∧ j < 65536
  | [], _, _ => nofun
  | i :: q, lo, h => by
    simp only [Presence.wfFrom, Bool.and_eq_true, decide_eq_true_eq] at h
    obtain ⟨⟨hlo, hi⟩, hq⟩ := h
    refine List.forall_mem_cons.mpr ⟨⟨hlo, hi⟩, fun j hj => ?_⟩
    have := Presence.wfFrom_bounds hq j hj
    omega

theorem Presence.wfFrom_pairwise : ∀ {q : Presence} {lo : Nat}, Presence.wfFrom lo q = true → q.Pairwise (· < ·)
  | [], _, _ => .nil
  | i :: q, lo, h => by
    simp only [Presence.wfFrom, Bool.and_eq_true] at h
    exact .cons (fun j hj => (Presence.wfFrom_bounds h.2 j hj).1) (Presence.wfFrom_pairwise h.2)

theorem Presence.mem_iff_has {q : Presence} (h : q.wf = true) (j : Nat) :
    j ∈ q ↔ ∃ a : Addr, a.toNat = j ∧ q.has a = true := by
  constructor
  · intro hj
    have hlt : j < 65536 := (Presence.wfFrom_bounds h j hj).2
    have hk : (BitVec.ofNat 16 j).toNat = j := Nat.mod_eq_of_lt hlt
    exact ⟨BitVec.ofNat 16 j, hk, by simpa [Presence.has, hk] using hj⟩
  · rintro ⟨a, rfl, ha⟩
    simpa [Presence.has] using ha

/-- Canonical presence planes that read alike list the same rising keys. -/
theorem Presence.eq_of_has {q q' : Presence} (h : q.wf = true) (h' : q'.wf = true) (he : ∀ a, q.has a = q'.has a) : q = q' :=
  (Presence.wfFrom_pairwise h).eq_of_mem_iff (Presence.wfFrom_pairwise h') fun j => by
    simp only [Presence.mem_iff_has h, Presence.mem_iff_has h', he]

/-- The addresses a value plane lists. -/
def Memory.keys (m : Memory) : Presence := m.map (·.1)

theorem Memory.wfFrom_keys : ∀ {m : Memory} {lo : Nat}, Memory.wfFrom lo m = true → Presence.wfFrom lo m.keys = true
  | [], _, _ => rfl
  | c :: m, lo, h => by
    simp only [Memory.wfFrom, Bool.and_eq_true] at h
    obtain ⟨⟨hkey, -⟩, hm⟩ := h
    exact Bool.and_eq_true_iff.mpr ⟨Bool.and_eq_true_iff.mpr hkey, Memory.wfFrom_keys hm⟩

theorem Memory.value_ne_unlisted : ∀ {m : Memory} {lo : Nat}, Memory.wfFrom lo m = true → ∀ c ∈ m, c.2 ≠ unlistedByte
  | [], _, _ => nofun
  | c :: m, lo, h => by
    simp only [Memory.wfFrom, Bool.and_eq_true, bne_iff_ne] at h
    obtain ⟨⟨-, hv⟩, hm⟩ := h
    exact List.forall_mem_cons.mpr ⟨hv, Memory.value_ne_unlisted hm⟩

/-- Where no key occurs twice, looking up a cell's key gives its byte. -/
theorem Memory.lookup_of_mem {m : Memory} (h : m.keys.Nodup) : ∀ c ∈ m, m.lookup c.1 = c.2 := by
  induction m with
  | nil => nofun
  | cons d m ih =>
    obtain ⟨hd, hm⟩ := List.nodup_cons.mp h
    refine List.forall_mem_cons.mpr ⟨by simp [Memory.lookup], fun c hc => ?_⟩
    have hne : d.1 ≠ c.1 := fun e => hd (List.mem_map.mpr ⟨c, hc, e.symm⟩)
    simpa [Memory.lookup, hne] using ih hm c hc

theorem Memory.wf_lookup {m : Memory} (h : m.wf = true) : ∀ c ∈ m, m.lookup c.1 = c.2 :=
  Memory.lookup_of_mem (Presence.wfFrom_pairwise (Memory.wfFrom_keys h)).nodup

/-- A canonical value plane lists exactly the addresses that do not read as unlisted. -/
theorem Memory.has_keys {m : Memory} (h : m.wf = true) (a : Addr) : m.keys.has a = (m.read a != unlistedByte) := by
  have hmem : a.toNat ∈ m.keys ↔ m.lookup a.toNat ≠ unlistedByte := by
    constructor
    · intro ha
      obtain ⟨c, hc, hkey⟩ := List.mem_map.mp ha
      exact hkey ▸ Memory.wf_lookup h c hc ▸ Memory.value_ne_unlisted h c hc
    · intro ha
      obtain ⟨c, hc, hkey⟩ := Memory.lookup_mem ha
      exact List.mem_map.mpr ⟨c, hc, hkey⟩
  rw [Bool.eq_iff_iff]
  simpa [Presence.has, Memory.read] using hmem

/-- A canonical value plane is its keys, each with the byte it reads as. -/
theorem Memory.eq_map_keys {m : Memory} (h : m.wf = true) : m = m.keys.map fun k => (k, m.read (BitVec.ofNat 16 k)) := by
  have hcell : ∀ c ∈ m, (c.1, m.read (BitVec.ofNat 16 c.1)) = c := fun c hc => by
    have hlt : c.1 < 65536 := (Presence.wfFrom_bounds (Memory.wfFrom_keys h) _ (List.mem_map_of_mem hc)).2
    have hk : (BitVec.ofNat 16 c.1).toNat = c.1 := Nat.mod_eq_of_lt hlt
    rw [Memory.read, hk, Memory.wf_lookup h c hc]
  rw [Memory.keys, List.map_map]
  exact ((List.map_congr_left (g := id) hcell).trans (List.map_id m)).symm

/-- Canonical value planes that read alike have the same keys, and so are the same cells. -/
theorem Memory.eq_of_read {m m' : Memory} (h : m.wf = true) (h' : m'.wf = true) (he : ∀ a, m.read a = m'.read a) : m = m' := by
  have hkeys : m.keys = m'.keys :=
    Presence.eq_of_has (Memory.wfFrom_keys h) (Memory.wfFrom_keys h') fun a => by rw [Memory.has_keys h, Memory.has_keys h', he]
  rw [Memory.eq_map_keys h, Memory.eq_map_keys h', hkeys]
  simp only [he]

end Sys2Proof.Machine
end

section
/-! The statements about memory (20_memory.md): O24, O31, O59, O60, O28. -/

namespace Sys2Proof.Machine

open Sys2Proof.Claims

/-- Settles O24: the store leaves its byte, present, at the next PC, and that byte decides the next step. -/
theorem nextFetchSeesTheStore : Obligations.NextFetchSeesTheStore := by
  intro i s t hrun he haddr
  obtain ⟨-, hnone, -⟩ | ⟨-, ea, hea, rfl⟩ := exec_next_cases he
  · cases hnone.symm.trans haddr
  have hpc : (s.storeAccumulator i.length ea).pc = ea := Option.some.inj (haddr.symm.trans hea)
  generalize ht : s.storeAccumulator i.length ea = t at hpc ⊢
  have hp : t.isPresent t.pc = true := by rw [hpc, ← ht]; simp
  have hb : t.readByte t.pc = s.a := by rw [hpc, ← ht, State.storeAccumulator_readByte_same]
  have hrun' : t.run = .running := ht ▸ hrun
  refine ⟨hp, hb, fun hunknown => ?_, fun hload => ?_⟩
  · exact hb ▸ step_of_unknownOpcode hrun' hp (hb ▸ hunknown)
  · have hfetch : t.fetchInstr = some (.ldaImmediate (operandByte t 1)) := by
      simp only [State.fetchInstr, hb, hload, operandByte, addrOf_toNat_add]
      rfl
    exact ⟨_, step_eq_exec hrun' hp hfetch, t.loads_loadAccumulator 2 _⟩

/-- Settles O31: the keys of a canonical plane rise, so what it reads as determines the list. -/
theorem canonicalPlanesAreEqualData : Obligations.CanonicalPlanesAreEqualData :=
  ⟨fun _ _ => Memory.eq_of_read, fun _ _ => Presence.eq_of_has⟩

/-- Settles O59: reads leave memory alone, and the write at the end is the step's. -/
theorem busTransactionsAccountForMemory : Obligations.BusTransactionsAccountForMemory :=
  fun _ _ _ h => (stepWith_traffic h).foldl_apply

/-- Settles O60: a RUNNING machine has a step, and every step's traffic is of this form. -/
theorem busTransactionsOfOneStep : Obligations.BusTransactionsOfOneStep := by
  intro c s hrun
  obtain ⟨t, h⟩ := exists_stepWith_of_running c hrun
  have traffic := stepWith_traffic h
  exact ⟨traffic.presence_first, fun before after a v he => (he ▸ traffic).write_last⟩

/-- Settles O28: the second byte's address is one further, modulo 65536. -/
theorem readWordIsLittleEndianAndWraps : Obligations.ReadWordIsLittleEndianAndWraps := by
  have hword : ∀ (s : State) (a : Addr), (s.readWord a).toNat = wordNat (s.readByte a) (s.readByte (a + 1)) :=
    fun s a => wordOf_toNat _ _
  exact ⟨fun s a => by simpa using hword s a, fun s => hword s 0xFFFF, fun s => hword s 0x00FF⟩

end Sys2Proof.Machine
end

section
/-! SUPPORT. The two directions between a row of the descriptor table and the bytes it stands for (30_encoding.md R55 to R59):
what an instruction's encoding is by its row, when the decoder answers, and how many opcode bytes have a row. -/

namespace Sys2Proof

open Sys2Proof.Claims

/-! ### A row and its encoding -/

/-- All 15 opcode bytes differ, so the lookup at a row's byte finds that row (R31, R56). -/
theorem opcodeRow_of_mem {r : Byte × Instr} (h : r ∈ opcodeTable) : opcodeRow r.1 = some r.2 := by
  revert r
  decide

/-- An encoding is the row's opcode byte and as many operand bytes as the row's mode consumes (R55, R57). -/
theorem encode_withOperand {r : Byte × Instr} (h : r ∈ opcodeTable) (b1 b2 : Byte) :
    encode (r.2.withOperand b1 b2) = r.1 :: [b1, b2].take r.2.mode.operandBytes := by
  simp only [opcodeTable, List.mem_cons, List.not_mem_nil, or_false] at h
  obtain rfl | rfl | rfl | rfl | rfl | rfl | rfl | rfl | rfl | rfl | rfl | rfl | rfl | rfl | rfl := h <;>
    simp [Instr.withOperand, encode, Instr.mode, Mode.operandBytes]

/-- The row is at byte 0 of the encoding, the operand at the bytes after it (R56, R58). -/
theorem Instr.exists_row (i : Instr) : ∃ r ∈ opcodeTable, ∃ b1 b2, i = r.2.withOperand b1 b2 := by
  refine ⟨((encode i).headD 0, i.withOperand 0 0), ?_, (encode i).getD 1 0, (encode i).getD 2 0, ?_⟩
  · cases i <;> simp [encode, Instr.withOperand, opcodeTable, wordOf]
  · cases i <;> simp [encode, Instr.withOperand]

/-- The bytes a mode does not consume do not matter to the operand (R58). -/
theorem Instr.withOperand_window (i : Instr) (b1 b2 : Byte) (rest : List Byte) :
    i.withOperand (([b1, b2].take i.mode.operandBytes ++ rest).getD 0 0)
      (([b1, b2].take i.mode.operandBytes ++ rest).getD 1 0) = i.withOperand b1 b2 := by
  cases i <;> rfl

/-! ### When the decoder answers -/

theorem decode_cons_eq_ok {b : Byte} {tail rest : List Byte} {i : Instr} :
    decode (b :: tail) = .ok (i, rest) ↔
      decodeWindow b (tail.getD 0 0) (tail.getD 1 0) = some i ∧ i.mode.operandBytes ≤ tail.length ∧
        tail.drop i.mode.operandBytes = rest := by
  rcases hwin : decodeWindow b (tail.getD 0 0) (tail.getD 1 0) with _ | j
  · simp only [decode, hwin, reduceCtorEq, false_and]
  · simp only [decode, hwin, Option.some.injEq]
    split
    next hshort =>
      simp only [reduceCtorEq, false_iff]
      rintro ⟨rfl, hlen, -⟩
      omega
    next hlen =>
      simp only [Except.ok.injEq, Prod.mk.injEq]
      exact ⟨fun ⟨hi, hr⟩ => hi ▸ ⟨rfl, Nat.le_of_not_lt hlen, hr⟩, fun ⟨hi, _, hr⟩ => ⟨hi, hi ▸ hr⟩⟩

theorem decode_cons_eq_unknownOpcode {b : Byte} {tail : List Byte} :
    decode (b :: tail) = .error (.unknownOpcode b) ↔ opcodeRow b = none := by
  rw [← decodeWindow_eq_none (b1 := tail.getD 0 0) (b2 := tail.getD 1 0)]
  rcases hwin : decodeWindow b (tail.getD 0 0) (tail.getD 1 0) with _ | i
  · simp only [decode, hwin]
  · simp only [decode, hwin, reduceCtorEq, iff_false]
    split <;> simp

theorem Mode.operandBytes_le_two (m : Mode) : m.operandBytes ≤ 2 := by cases m <;> decide

/-- The operand bytes read through the decoder's window, put before what is left, are the bytes after the opcode. -/
theorem take_window_append_drop {n : Nat} {l : List Byte} (h2 : n ≤ 2) (hn : n ≤ l.length) :
    [l.getD 0 0, l.getD 1 0].take n ++ l.drop n = l := by
  match n, l with
  | 0, _ => rfl
  | 1, _ :: _ => rfl
  | 2, _ :: _ :: _ => rfl

/-! ### How many byte values are known -/

/-- The 15 known opcode bytes are distinct, so they are exactly 15 of the 256 byte values (R62). -/
theorem filter_known_perm :
    ((List.range 256).filter fun n => decide (BitVec.ofNat 8 n ∈ knownOpcodes)).Perm (knownOpcodes.map BitVec.toNat) := by
  refine (List.perm_ext_iff_of_nodup (List.nodup_range.filter _) (by decide)).mpr fun n => ?_
  simp only [List.mem_filter, List.mem_range, decide_eq_true_eq, List.mem_map]
  constructor
  · rintro ⟨hlt, hmem⟩
    exact ⟨_, hmem, Nat.mod_eq_of_lt hlt⟩
  · rintro ⟨b, hmem, rfl⟩
    exact ⟨b.isLt, by simpa using hmem⟩

theorem length_filter_unknown :
    ((List.range 256).filter fun n => decide (BitVec.ofNat 8 n ∉ knownOpcodes)).length = 241 := by
  have hsplit := List.length_eq_length_filter_add (l := List.range 256) fun n => decide (BitVec.ofNat 8 n ∈ knownOpcodes)
  simp only [filter_known_perm.length_eq, List.length_range, List.length_map, ← decide_not] at hsplit
  exact Nat.add_left_cancel hsplit.symm

end Sys2Proof
end

section
/-! The statements about the encoding (30_encoding.md): O1, O2, O3, O4. -/

namespace Sys2Proof

/-- Settles O1: the lookup at the row's opcode byte finds the row, and the window gives back the operand. -/
theorem decodeOfEncodeIsTheInstruction : Obligations.DecodeOfEncodeIsTheInstruction := by
  intro i rest _
  obtain ⟨r, hr, b1, b2, rfl⟩ := i.exists_row
  rw [encode_withOperand hr, List.cons_append, decode_cons_eq_ok, Instr.withOperand_mode]
  have hlen : ([b1, b2].take r.2.mode.operandBytes).length = r.2.mode.operandBytes := by
    simpa using r.2.mode.operandBytes_le_two
  refine ⟨?_, by simp [hlen], List.drop_left' hlen⟩
  rw [decodeWindow, opcodeRow_of_mem hr, Option.map_some, Instr.withOperand_window]

/-- Settles O2: what decodes is a row with its operand filled in, whose encoding is the bytes the decoder consumed. -/
theorem encodeOfDecodedIsTheBytes : Obligations.EncodeOfDecodedIsTheBytes := by
  intro bs rest i h
  refine ⟨i.wf_all, ?_⟩
  cases bs with
  | nil => cases h
  | cons b tail =>
    obtain ⟨hwin, hlen, rfl⟩ := decode_cons_eq_ok.mp h
    obtain ⟨r, hr, rfl, rfl⟩ := decodeWindow_row hwin
    rw [Instr.withOperand_mode] at hlen ⊢
    rw [encode_withOperand hr, List.cons_append, take_window_append_drop (Mode.operandBytes_le_two _) hlen]

theorem decode_encode (i : Instr) : decode (encode i) = .ok (i, []) := by
  simpa using decodeOfEncodeIsTheInstruction i [] i.wf_all

/-- Settles O3: each word is the encoding of its instruction, the low byte of a word operand first. -/
theorem writtenOutWordsDecode : Obligations.WrittenOutWordsDecode :=
  ⟨decode_encode (.ldaImmediate 0xAA), decode_encode (.staAbsolute 0x4000), decode_encode (.ldaIndirectX 0x20),
    decode_encode (.ldaAbsoluteX 0x40F0), decode_encode (.staIndirectY 0x30)⟩

/-- Settles O4: the decoder answers `unknownOpcode` exactly where the table has no row, and 15 of the 256 byte values have one. -/
theorem otherOpcodesAreUnknown : Obligations.OtherOpcodesAreUnknown :=
  ⟨fun b _ => decode_cons_eq_unknownOpcode.trans (Machine.opcodeRow_eq_none_iff b), length_filter_unknown⟩

end Sys2Proof
end

section
/-! SUPPORT. The instruction at PC and the engine's descriptor dispatch, matched: the decoder's window in memory, and one arm of
`exec` against the mode's resolver and the operation it feeds (40_engine.md R70 to R76). -/

namespace Sys2Proof.Machine

open Sys2Proof.Claims

/-! ### The bytes of the instruction at PC (R55, R70) -/

@[simp] theorem operandByte_eq (s : State) (k : Nat) : operandByte s k = s.readByte (s.pc + BitVec.ofNat 16 k) := by
  rw [operandByte, addrOf_toNat_add]

theorem State.fetchInstr_eq_decodeWindow (s : State) :
    s.fetchInstr = decodeWindow (operandByte s 0) (operandByte s 1) (operandByte s 2) := by
  simp [State.fetchInstr]

theorem State.fetchInstr_of_decode {s : State} {i : Instr} {rest : List Byte}
    (h : decode [operandByte s 0, operandByte s 1, operandByte s 2] = .ok (i, rest)) : s.fetchInstr = some i :=
  s.fetchInstr_eq_decodeWindow.trans (decode_cons_eq_ok.mp h).1

theorem encode_length_le_three (i : Instr) : (encode i).length ≤ 3 := by
  obtain ⟨r, hr, b1, b2, rfl⟩ := i.exists_row
  simp [encode_withOperand hr]

/-- An encoding that stands at PC begins the three bytes the fetch looks at. -/
theorem encode_prefix_window {s : State} {i : Instr}
    (h : ∀ (k : Nat) (hk : k < (encode i).length), operandByte s k = (encode i)[k]) :
    encode i <+: [operandByte s 0, operandByte s 1, operandByte s 2] := by
  refine List.prefix_iff_getElem.mpr ⟨encode_length_le_three i, fun k hk => (h k hk).symm.trans ?_⟩
  match k, hk.trans_le (encode_length_le_three i) with
  | 0, _ => rfl
  | 1, _ => rfl
  | 2, _ => rfl

/-! ### Every arm of `exec` completes (R76) -/

theorem exists_exec_next (i : Instr) (s : State) : ∃ t, exec i s = .next t ∧ t.pc = s.pc + BitVec.ofNat 16 i.length := by
  obtain ⟨-, -, v, he⟩ | ⟨-, ea, -, he⟩ := exec_cases i s
  · exact ⟨_, he, rfl⟩
  · exact ⟨_, he, rfl⟩

/-! ### The dispatch of a descriptor at the defaults (R72 to R76) -/

/-- A mode that resolves to a value makes the dispatch of LDA a completed load of it (R100). -/
theorem State.dispatch_lda {s : State} {m : Mode} {v : Byte} (hacc : accepts .lda m = true)
    (hv : ((s.advancePc 1).resolve Config.standard m .value).1 = .value v) :
    s.dispatch Config.standard ⟨.lda, m⟩ = s.loadAccumulator (1 + m.operandBytes) v := by
  simp only [State.dispatch, hacc, if_true, Operation.kind, hv, State.resolve_state, State.advancePc_advancePc, State.execute]
  rfl

/-- A mode that resolves to an address makes the dispatch of STA a completed store there (R110). -/
theorem State.dispatch_sta {s : State} {m : Mode} {ea : Addr} (hacc : accepts .sta m = true)
    (hea : ((s.advancePc 1).resolve Config.standard m .address).1 = .address ea) :
    s.dispatch Config.standard ⟨.sta, m⟩ = s.storeAccumulator (1 + m.operandBytes) ea := by
  simp only [State.dispatch, hacc, if_true, Operation.kind, hea, State.resolve_state, State.advancePc_advancePc, State.execute]
  rfl

/-- The operand word the resolver fetches is the one at bytes 1 and 2 of the instruction (R10, R58). -/
theorem State.fetchWord_after_opcode (s : State) :
    (s.advancePc 1).fetchWord.1 = wordOf (s.readByte (s.pc + 1)) (s.readByte (s.pc + 2)) := by
  simp [BitVec.add_assoc]

/-- The arm of an instruction whose operand is the bytes after the opcode completes with what the engine's resolver, entered
past the opcode, delivers: the value of a load or the address of a store (R83, R84). -/
theorem exec_withOperand (i : Instr) (s : State) :
    (i.operation = .lda ∧ ∃ v, ((s.advancePc 1).resolve Config.standard i.mode .value).1 = .value v ∧
      exec (i.withOperand (s.readByte (s.pc + 1)) (s.readByte (s.pc + 2))) s = .next (s.loadAccumulator i.length v)) ∨
    (i.operation = .sta ∧ ∃ ea, ((s.advancePc 1).resolve Config.standard i.mode .address).1 = .address ea ∧
      exec (i.withOperand (s.readByte (s.pc + 1)) (s.readByte (s.pc + 2))) s = .next (s.storeAccumulator i.length ea)) := by
  cases i with
  | ldaImmediate | ldaZeroPage | ldaZeroPageX | ldaIndirectX | ldaIndirectY => exact .inl ⟨rfl, _, rfl, rfl⟩
  | staZeroPage | staZeroPageX | staIndirectX | staIndirectY => exact .inr ⟨rfl, _, rfl, rfl⟩
  | ldaAbsolute | ldaAbsoluteX | ldaAbsoluteY =>
    simp only [Instr.withOperand, ← s.fetchWord_after_opcode]
    exact .inl ⟨rfl, _, rfl, rfl⟩
  | staAbsolute | staAbsoluteX | staAbsoluteY =>
    simp only [Instr.withOperand, ← s.fetchWord_after_opcode]
    exact .inr ⟨rfl, _, rfl, rfl⟩

/-! ### The fetched instruction and the descriptor of the byte at PC (R56, R71) -/

theorem State.standard_desc_fetchInstr (s : State) :
    Config.standard.desc (s.readByte s.pc) = s.fetchInstr.map Instr.descriptor := by
  rw [standard_desc, State.fetchInstr, decodeWindow, Option.map_map]
  congr 1
  funext i
  simp [Instr.descriptor]

/-- The arm of the fetched instruction does what the engine does for its descriptor (R68). -/
theorem exec_of_fetchInstr {s : State} {i : Instr} (h : s.fetchInstr = some i) :
    exec i s = .next (s.dispatch Config.standard i.descriptor) := by
  obtain ⟨⟨b, j⟩, -, -, rfl⟩ := decodeWindow_row h
  have hacc := accepts_instr j
  simp only [Instr.descriptor, Instr.withOperand_operation, Instr.withOperand_mode]
  obtain ⟨hop, v, hv, he⟩ | ⟨hop, ea, hea, he⟩ := exec_withOperand j s <;> rw [hop] at hacc ⊢
  · exact he.trans (congrArg _ (State.dispatch_lda hacc hv).symm)
  · exact he.trans (congrArg _ (State.dispatch_sta hacc hea).symm)

end Sys2Proof.Machine
end

section
/-! The statements about the engine's step (40_engine.md): O46, O47, O48, O42. -/

namespace Sys2Proof.Machine

open Sys2Proof.Claims

/-- Settles O46: the decoder and the fetch look through the same window, and every arm completes. -/
theorem stepRunsTheDecodedInstruction : Obligations.StepRunsTheDecodedInstruction := by
  intro s i rest hrun hp hdecode
  obtain ⟨t, he, hpc⟩ := exists_exec_next i s
  exact ⟨i.wf_all, step_eq_exec hrun hp (State.fetchInstr_of_decode hdecode), t, he, by simp [hpc]⟩

/-- Settles O47: the encoding begins the window at PC, whatever follows it there, and decoding an encoding gives it back. -/
theorem stepRunsTheEncodedInstruction : Obligations.StepRunsTheEncodedInstruction := by
  intro s i hrun hp hbytes
  obtain ⟨rest, hwindow⟩ := encode_prefix_window hbytes
  have hdecode : decode [operandByte s 0, operandByte s 1, operandByte s 2] = .ok (i, rest) :=
    hwindow ▸ decodeOfEncodeIsTheInstruction i rest i.wf_all
  exact step_eq_exec hrun hp (State.fetchInstr_of_decode hdecode)

/-- Settles O48: the tests come in the same order, the descriptor is the fetched instruction's, and dispatching it is the arm. -/
theorem stepIsTheEngineAtTheDefaults : Obligations.StepIsTheEngineAtTheDefaults := by
  intro s
  simp only [step, stepWith, s.standard_desc_fetchInstr]
  cases s.run with
  | halted => rfl
  | faulted => rfl
  | running =>
    cases s.isPresent s.pc with
    | false => rfl
    | true =>
      cases hfetch : s.fetchInstr with
      | none => rfl
      | some i => simp [exec_of_fetchInstr hfetch]

/-- Settles O42: the engine has a step exactly when RUNNING under any configuration, and the default machine is one of them. -/
theorem stepIsEnabledExactlyWhenRunning : Obligations.StepIsEnabledExactlyWhenRunning := by
  intro c s
  refine ⟨fun hrun => ⟨?_, exists_stepWith_of_running c hrun⟩, fun hne => ⟨fun t h => ?_, fun t h => ?_⟩⟩
  · exact stepIsTheEngineAtTheDefaults s ▸ exists_stepWith_of_running Config.standard hrun
  · exact hne (step_running h)
  · exact hne (stepWith_cases h).1

end Sys2Proof.Machine
end

section
/-! SUPPORT. Which modes operations accept and descriptors select, what the resolver hands over in each, and the effective
addresses the claims write out on numbers as the words the machine computes (41_addressing.md R83 to R98). -/

namespace Sys2Proof

/-! ### The modes operations accept and descriptors select (R98, R59) -/

theorem accepts_lda_iff (m : Mode) : accepts .lda m = true ↔ m ≠ .implicit := by cases m <;> decide

theorem accepts_sta_iff (m : Mode) : accepts .sta m = true ↔ m ≠ .implicit ∧ m ≠ .immediate := by cases m <;> decide

/-- Every descriptor of the default table is an instruction's (R59). -/
theorem exists_instr_of_standard_desc {b : Byte} {d : Descriptor} (h : Config.standard.desc b = some d) :
    ∃ i : Instr, i.descriptor = d := by
  rw [standard_desc, Option.map_eq_some_iff] at h
  exact h.imp fun _ hi => hi.2

theorem Instr.mode_ne_zeroPageY (i : Instr) : i.mode ≠ .zeroPageY := by cases i <;> nofun

end Sys2Proof

namespace Sys2Proof.Machine

open Sys2Proof.Claims

/-! ### Sums of bytes and words as addresses (R86, R89 to R95) -/

@[simp] theorem addrOf_toNat (a : Addr) : addrOf a.toNat = a := by simp [addrOf]

@[simp] theorem addrOf_toNat_byte (b : Byte) : addrOf b.toNat = zext b := BitVec.ofNat_toNat 16 b

/-- An index added to a word wraps at the top of memory (R89, R90, R95). -/
theorem addrOf_word_add_index (w : Addr) (b : Byte) : addrOf ((w.toNat + b.toNat) % 65536) = w + zext b := by
  simp [zext]

/-- An index added to a zero-page location wraps within page 0 (R92 to R94). -/
theorem addrOf_byte_add_index (d b : Byte) : addrOf ((d.toNat + b.toNat) % 256) = zext (d + b) := by
  rw [← addrOf_toNat_byte, BitVec.toNat_add]

/-! ### The operand word and the pointer as numbers (R10, R97) -/

theorem wordNat_eq_toNat (lo hi : Byte) : wordNat lo hi = (wordOf lo hi).toNat := (wordOf_toNat lo hi).symm

theorem wordAtPc_eq_fetchWord (s : State) : wordAtPc s = s.fetchWord.1.toNat := by
  rw [wordAtPc, wordNat_eq_toNat, addrOf_toNat_add]
  rfl

/-- A pointer's high byte lies where the claims say, under either value of `ZP_POINTER_WRAP` (R97). -/
theorem addrOf_pointerHigh (c : Config) (p : Byte) :
    addrOf (if c.zpPointerWrap then (p.toNat + 1) % 256 else p.toNat + 1) = pointerHighAddr c p := by
  cases hwrap : c.zpPointerWrap with
  | true => simpa [pointerHighAddr, hwrap] using addrOf_byte_add_index p 1
  | false => simp [pointerHighAddr, hwrap, addrOf, zext, BitVec.ofNat_add]

theorem pointerNat_eq_pointerRead (c : Config) (s : State) (p : Byte) : pointerNat c s p.toNat = (s.pointerRead c p).toNat := by
  rw [pointerNat, addrOf_toNat_byte, addrOf_pointerHigh, wordNat_eq_toNat]
  rfl

/-! ### What the resolver hands over (R83, R84) -/

/-- Nothing in the mode Implicit, the operand byte in Immediate, and in every other mode what an effective address becomes for
the kind of operand asked for. -/
theorem State.resolve_result_cases (c : Config) (s : State) (m : Mode) :
    (m = .implicit ∧ ∀ k, (s.resolve c m k).1 = .nothing) ∨
    (m = .immediate ∧ ∀ k, (s.resolve c m k).1 = .value s.fetchByte.1) ∨
    ((m ≠ .implicit ∧ m ≠ .immediate) ∧ ∃ ea, ∀ k, (s.resolve c m k).1 = s.deliver k ea) := by
  cases m with
  | implicit => exact .inl ⟨rfl, fun _ => rfl⟩
  | immediate => exact .inr (.inl ⟨rfl, fun _ => rfl⟩)
  | absolute | absoluteX | absoluteY | zeroPage | zeroPageX | zeroPageY | indexedIndirectX | indirectIndexedY =>
    exact .inr (.inr ⟨⟨nofun, nofun⟩, _, fun _ => rfl⟩)

theorem State.resolve_gives_value_iff (c : Config) (s : State) (m : Mode) :
    (∃ v, (s.resolve c m .value).1 = .value v) ↔ m ≠ .implicit := by
  obtain ⟨rfl, h⟩ | ⟨rfl, h⟩ | ⟨⟨hne, -⟩, ea, h⟩ := s.resolve_result_cases c m
  · simp [h]
  · simp [h]
  · simp [h, hne, State.deliver]

theorem State.resolve_gives_address_iff (c : Config) (s : State) (m : Mode) :
    (∃ ea, (s.resolve c m .address).1 = .address ea) ↔ m ≠ .implicit ∧ m ≠ .immediate := by
  obtain ⟨rfl, h⟩ | ⟨rfl, h⟩ | ⟨hne, ea, h⟩ := s.resolve_result_cases c m
  · simp [h]
  · simp [h]
  · simp [h, hne, State.deliver]

/-- A mode that delivers the address `a` for either kind of operand resolves to it: the rest is the move of PC (R83). -/
theorem State.resolvesTo_of_deliver {c : Config} {s : State} {m : Mode} {ea : Nat} {a : Addr} (ha : addrOf ea = a)
    (h : ∀ k, (s.resolve c m k).1 = s.deliver k a) : ResolvesTo c s m m.operandBytes ea := by
  have hresolve : ∀ k,
      s.resolve c m k = (s.deliver k (addrOf ea), { s with pc := addrOf (s.pc.toNat + m.operandBytes) }) := fun k => by
    rw [addrOf_toNat_add, ha]
    exact Prod.ext (h k) (s.resolve_state c m k)
  exact ⟨hresolve .address, hresolve .value⟩

end Sys2Proof.Machine
end

section
/-! The statements about addressing (41_addressing.md): O33, O34, O35, O37. -/

namespace Sys2Proof.Machine

open Sys2Proof.Claims

/-- Settles O33: the operand word is the one at PC, and an index added to it wraps at 65536. -/
theorem absoluteFamilyResolves : Obligations.AbsoluteFamilyResolves := by
  intro c s
  rw [wordAtPc_eq_fetchWord]
  exact ⟨State.resolvesTo_of_deliver (addrOf_toNat _) fun _ => rfl,
    State.resolvesTo_of_deliver (addrOf_word_add_index _ s.x) fun _ => rfl,
    State.resolvesTo_of_deliver (addrOf_word_add_index _ s.y) fun _ => rfl⟩

/-- Settles O34: an index added to the operand byte wraps at 256, and no instruction's mode is Zero Page,Y. -/
theorem zeroPageFamilyResolves : Obligations.ZeroPageFamilyResolves := by
  refine ⟨fun c s => ⟨?direct, ?indexX, ?indexY⟩, fun b d hd => ?unselected⟩
  case direct => exact State.resolvesTo_of_deliver (addrOf_toNat_byte _) fun _ => rfl
  case indexX => exact State.resolvesTo_of_deliver (addrOf_byte_add_index _ s.x) fun _ => rfl
  case indexY => exact State.resolvesTo_of_deliver (addrOf_byte_add_index _ s.y) fun _ => rfl
  case unselected =>
    obtain ⟨i, rfl⟩ := exists_instr_of_standard_desc hd
    exact i.mode_ne_zeroPageY

/-- Settles O35: X moves the location the pointer is read from, within page 0; Y moves the pointer read, modulo 65536. -/
theorem indirectModesResolve : Obligations.IndirectModesResolve := by
  intro c s
  have hX : pointerNat c s ((byteAtPc s + s.x.toNat) % 256) = (s.eaIndexedIndirectX c s.fetchByte.1).toNat :=
    pointerNat_eq_pointerRead c s (s.fetchByte.1 + s.x)
  have hY : pointerNat c s (byteAtPc s) = (s.pointerRead c s.fetchByte.1).toNat := pointerNat_eq_pointerRead c s _
  rw [hX, hY]
  exact ⟨State.resolvesTo_of_deliver (addrOf_toNat _) fun _ => rfl,
    State.resolvesTo_of_deliver (addrOf_word_add_index _ s.y) fun _ => rfl⟩

/-- Settles O37: both the table and the resolver leave out Implicit for a value, and Immediate too for an address. -/
theorem acceptedModesAreTheResolvableOnes : Obligations.AcceptedModesAreTheResolvableOnes :=
  ⟨accepts_lda_iff, accepts_sta_iff, fun c s m =>
    ⟨(accepts_lda_iff m).trans (s.resolve_gives_value_iff c m).symm,
      (accepts_sta_iff m).trans (s.resolve_gives_address_iff c m).symm⟩⟩

end Sys2Proof.Machine
end

section
/-! SUPPORT. The pointers the claims write out as the machine's effective addresses, the instruction a machine at a present opcode
runs, each form of Load-Accumulator completed, and the flags it leaves (42_load_accumulator.md R100 to R109). -/

namespace Sys2Proof.Machine

open Sys2Proof.Claims

/-! ### Indirect addresses and the operand word as numbers (R58, R94, R95) -/

/-- X is added to the pointer's location, within page 0 (R94). -/
theorem addrOf_indexedIndirectX (c : Config) (s : State) (d : Byte) :
    addrOf (pointerNat c s ((d.toNat + s.x.toNat) % 256)) = s.eaIndexedIndirectX c d := by
  rw [← BitVec.toNat_add, pointerNat_eq_pointerRead, addrOf_toNat]
  rfl

/-- Y is added to the pointer, which wraps at the top of memory (R95). -/
theorem addrOf_indirectIndexedY (c : Config) (s : State) (d : Byte) :
    addrOf ((pointerNat c s d.toNat + s.y.toNat) % 65536) = s.eaIndirectIndexedY c d := by
  rw [pointerNat_eq_pointerRead, addrOf_word_add_index]
  rfl

theorem operandWord_eq_toNat (s : State) : operandWord s = (wordOf (operandByte s 1) (operandByte s 2)).toNat :=
  wordNat_eq_toNat _ _

/-! ### A running machine at the opcode of a row (R56, R58, R68) -/

/-- The step runs the row's instruction, its operand the bytes after the opcode. -/
theorem step_at_opcode {s : State} {b : Byte} {i : Instr} (hat : AtOpcode s b) (hrow : opcodeRow b = some i) :
    step s = exec (i.withOperand (operandByte s 1) (operandByte s 2)) s := by
  obtain ⟨hrun, hp, hb⟩ := hat
  have hopcode : operandByte s 0 = b := by simpa using hb
  refine step_eq_exec hrun hp ?_
  rw [State.fetchInstr_eq_decodeWindow, hopcode, decodeWindow, hrow, Option.map_some]

theorem stepLoads_at_opcode {s : State} {b : Byte} {i : Instr} {len : Nat} {v : Byte} (hat : AtOpcode s b)
    (hrow : opcodeRow b = some i) (h : ExecLoads (i.withOperand (operandByte s 1) (operandByte s 2)) s len v) :
    StepLoads s len v := by
  rw [StepLoads, step_at_opcode hat hrow]
  exact h

/-! ### The forms of Load-Accumulator (R102 to R109) -/

/-- A form that loads the byte at `ea` completes the load of the byte at that address, however the claims write it. -/
theorem execLoads_readByte {i : Instr} {s : State} {len : Nat} {a ea : Addr}
    (hexec : exec i s = .next (s.loadAccumulator len (s.readByte ea))) (ha : a = ea) : ExecLoads i s len (s.readByte a) :=
  ha ▸ ⟨_, hexec, s.loads_loadAccumulator len _⟩

theorem execLoads_ldaImmediate (s : State) (d : Byte) : ExecLoads (.ldaImmediate d) s 2 d :=
  ⟨_, rfl, s.loads_loadAccumulator 2 d⟩

theorem execLoads_ldaZeroPage (s : State) (d : Byte) : ExecLoads (.ldaZeroPage d) s 2 (s.readByte (addrOf d.toNat)) :=
  execLoads_readByte rfl (addrOf_toNat_byte d)

theorem execLoads_ldaZeroPageX (s : State) (d : Byte) :
    ExecLoads (.ldaZeroPageX d) s 2 (s.readByte (addrOf ((d.toNat + s.x.toNat) % 256))) :=
  execLoads_readByte rfl (addrOf_byte_add_index d s.x)

theorem execLoads_ldaAbsolute (s : State) (w : Addr) : ExecLoads (.ldaAbsolute w) s 3 (s.readByte w) :=
  execLoads_readByte rfl rfl

theorem execLoads_ldaAbsoluteX (s : State) (w : Addr) :
    ExecLoads (.ldaAbsoluteX w) s 3 (s.readByte (addrOf ((w.toNat + s.x.toNat) % 65536))) :=
  execLoads_readByte rfl (addrOf_word_add_index w s.x)

theorem execLoads_ldaAbsoluteY (s : State) (w : Addr) :
    ExecLoads (.ldaAbsoluteY w) s 3 (s.readByte (addrOf ((w.toNat + s.y.toNat) % 65536))) :=
  execLoads_readByte rfl (addrOf_word_add_index w s.y)

theorem execLoads_ldaIndirectX (s : State) (d : Byte) : ExecLoads (.ldaIndirectX d) s 2
    (s.readByte (addrOf (pointerNat Config.standard s ((d.toNat + s.x.toNat) % 256)))) :=
  execLoads_readByte rfl (addrOf_indexedIndirectX _ s d)

theorem execLoads_ldaIndirectY (s : State) (d : Byte) : ExecLoads (.ldaIndirectY d) s 2
    (s.readByte (addrOf ((pointerNat Config.standard s d.toNat + s.y.toNat) % 65536))) :=
  execLoads_readByte rfl (addrOf_indirectIndexedY _ s d)

/-! ### The flags of a completed load (R100, R119) -/

theorem State.loadAccumulator_zeroFlag_iff (s : State) (len : Nat) (v : Byte) :
    (s.loadAccumulator len v).zeroFlag Config.standard = true ↔ v = 0 := by
  obtain ⟨-, hzero, -⟩ := s.loads_loadAccumulator len v
  simp [hzero, BitVec.toNat_eq]

theorem State.loadAccumulator_negativeFlag_iff (s : State) (len : Nat) (v : Byte) :
    (s.loadAccumulator len v).negativeFlag Config.standard = true ↔ 128 ≤ v.toNat := by
  obtain ⟨-, -, hnegative, -⟩ := s.loads_loadAccumulator len v
  rw [hnegative, decide_eq_true_iff]

/-- Zero and Negative are never both set, since 0 is below 128. -/
theorem State.loadAccumulator_not_zero_and_negative (s : State) (len : Nat) (v : Byte) :
    ((s.loadAccumulator len v).zeroFlag Config.standard && (s.loadAccumulator len v).negativeFlag Config.standard) = false := by
  rw [Bool.eq_false_iff, Ne, Bool.and_eq_true, s.loadAccumulator_zeroFlag_iff, s.loadAccumulator_negativeFlag_iff]
  rintro ⟨rfl, h⟩
  exact absurd h (by decide)

end Sys2Proof.Machine
end

section
/-! The statements about Load-Accumulator (42_load_accumulator.md): O20, O23, O5, O6, O7, O8, O9, O10, O11, O12. -/

namespace Sys2Proof.Machine

open Sys2Proof.Claims

/-- Settles O20: each form's address, written out on numbers, is the one its arm reads. -/
theorem everyLoadFormCompletes : Obligations.EveryLoadFormCompletes := fun s d w =>
  ⟨execLoads_ldaImmediate s d, execLoads_ldaZeroPage s d, execLoads_ldaZeroPageX s d, execLoads_ldaAbsolute s w,
    execLoads_ldaAbsoluteX s w, execLoads_ldaAbsoluteY s w, execLoads_ldaIndirectX s d, execLoads_ldaIndirectY s d⟩

/-- Settles O23: whatever a load form answers is a completed load of some value, and a store's own byte reads back. -/
theorem loadFlagsAndRoundTrip : Obligations.LoadFlagsAndRoundTrip := by
  refine ⟨fun i s t hlda he => ?flags, fun s v w => ?roundTrip⟩
  case flags =>
    obtain ⟨-, -, v, rfl⟩ | ⟨hsta, -⟩ := exec_next_cases he
    · exact ⟨s.loadAccumulator_zeroFlag_iff _ v, s.loadAccumulator_negativeFlag_iff _ v,
        s.loadAccumulator_not_zero_and_negative _ v⟩
    · cases hlda.symm.trans hsta
  case roundTrip =>
    exact ⟨s.loadAccumulator 2 v, (s.loadAccumulator 2 v).storeAccumulator 3 w, rfl, rfl,
      State.storeAccumulator_readByte_same _ 3 w⟩

/-- Settles O5: the row of 0xA9 is LDA Immediate, and its operand is the byte after the opcode. -/
theorem ldaImmediateStep : Obligations.LdaImmediateStep := fun s hat =>
  stepLoads_at_opcode hat rfl (execLoads_ldaImmediate s _)

/-- Settles O6: the row of 0xA5 is LDA Zero Page. -/
theorem ldaZeroPageStep : Obligations.LdaZeroPageStep := fun s hat =>
  stepLoads_at_opcode hat rfl (execLoads_ldaZeroPage s _)

/-- Settles O7: the row of 0xB5 is LDA Zero Page,X. -/
theorem ldaZeroPageXStep : Obligations.LdaZeroPageXStep := fun s hat =>
  stepLoads_at_opcode hat rfl (execLoads_ldaZeroPageX s _)

/-- Settles O8: the row of 0xAD is LDA Absolute, and its operand is the word of the two bytes after the opcode. -/
theorem ldaAbsoluteStep : Obligations.LdaAbsoluteStep := by
  intro s hat
  rw [operandWord_eq_toNat, addrOf_toNat]
  exact stepLoads_at_opcode hat rfl (execLoads_ldaAbsolute s _)

/-- Settles O9: the row of 0xBD is LDA Absolute,X. -/
theorem ldaAbsoluteXStep : Obligations.LdaAbsoluteXStep := by
  intro s hat
  rw [operandWord_eq_toNat]
  exact stepLoads_at_opcode hat rfl (execLoads_ldaAbsoluteX s _)

/-- Settles O10: the row of 0xB9 is LDA Absolute,Y. -/
theorem ldaAbsoluteYStep : Obligations.LdaAbsoluteYStep := by
  intro s hat
  rw [operandWord_eq_toNat]
  exact stepLoads_at_opcode hat rfl (execLoads_ldaAbsoluteY s _)

/-- Settles O11: the row of 0xA1 is LDA Indexed-Indirect (X). -/
theorem ldaIndirectXStep : Obligations.LdaIndirectXStep := fun s hat =>
  stepLoads_at_opcode hat rfl (execLoads_ldaIndirectX s _)

/-- Settles O12: the row of 0xB1 is LDA Indirect-Indexed (Y). -/
theorem ldaIndirectYStep : Obligations.LdaIndirectYStep := fun s hat =>
  stepLoads_at_opcode hat rfl (execLoads_ldaIndirectY s _)

end Sys2Proof.Machine
end

section
/-! SUPPORT. The machine's completed store as the claims write it out, each form of Store-Accumulator completed, and the step at its
opcode (43_store_accumulator.md R110 to R118). -/

namespace Sys2Proof.Machine

open Sys2Proof.Claims

/-- The machine's completed store is the claims': the byte and the presence bit at `ea`, and PC, alone (R110). -/
theorem State.stores_storeAccumulator (s : State) (len : Nat) (ea : Addr) :
    Stores s (s.storeAccumulator len ea) len ea :=
  ⟨s.storeAccumulator_readByte_same len ea, by simp, fun b hb => s.storeAccumulator_readByte_other len hb,
    fun b hb => by simp [hb], by simp, rfl, rfl, rfl, rfl, rfl, rfl, rfl⟩

/-- An instruction that stores at the address the claims write `n` completes the store there, PC past its length. -/
theorem execStores_of_storeAddr {i : Instr} {s : State} {n : Nat} {ea : Addr} (haddr : storeAddr i s = some ea)
    (hn : addrOf n = ea) : ExecStores i s i.length n := by
  obtain ⟨-, hnone, -⟩ | ⟨-, ea', haddr', he⟩ := exec_cases i s
  · cases hnone.symm.trans haddr
  · obtain rfl : ea' = addrOf n := Option.some.inj (haddr'.symm.trans (hn ▸ haddr))
    exact ⟨_, he, s.stores_storeAccumulator i.length _⟩

theorem stepStores_at_opcode {s : State} {b : Byte} {i : Instr} {len n : Nat} (hat : AtOpcode s b)
    (hrow : opcodeRow b = some i) (h : ExecStores (i.withOperand (operandByte s 1) (operandByte s 2)) s len n) :
    StepStores s len n := by
  rw [StepStores, step_at_opcode hat hrow]
  exact h

/-! ### The forms of Store-Accumulator (R112 to R118) -/

theorem execStores_staZeroPage (s : State) (d : Byte) : ExecStores (.staZeroPage d) s 2 d.toNat :=
  execStores_of_storeAddr rfl (addrOf_toNat_byte d)

theorem execStores_staZeroPageX (s : State) (d : Byte) :
    ExecStores (.staZeroPageX d) s 2 ((d.toNat + s.x.toNat) % 256) :=
  execStores_of_storeAddr rfl (addrOf_byte_add_index d s.x)

theorem execStores_staAbsolute (s : State) (w : Addr) : ExecStores (.staAbsolute w) s 3 w.toNat :=
  execStores_of_storeAddr rfl (addrOf_toNat w)

theorem execStores_staAbsoluteX (s : State) (w : Addr) :
    ExecStores (.staAbsoluteX w) s 3 ((w.toNat + s.x.toNat) % 65536) :=
  execStores_of_storeAddr rfl (addrOf_word_add_index w s.x)

theorem execStores_staAbsoluteY (s : State) (w : Addr) :
    ExecStores (.staAbsoluteY w) s 3 ((w.toNat + s.y.toNat) % 65536) :=
  execStores_of_storeAddr rfl (addrOf_word_add_index w s.y)

theorem execStores_staIndirectX (s : State) (d : Byte) :
    ExecStores (.staIndirectX d) s 2 (pointerNat Config.standard s ((d.toNat + s.x.toNat) % 256)) :=
  execStores_of_storeAddr rfl (addrOf_indexedIndirectX _ s d)

theorem execStores_staIndirectY (s : State) (d : Byte) :
    ExecStores (.staIndirectY d) s 2 ((pointerNat Config.standard s d.toNat + s.y.toNat) % 65536) :=
  execStores_of_storeAddr rfl (addrOf_indirectIndexedY _ s d)

end Sys2Proof.Machine
end

section
/-! The statements about Store-Accumulator (43_store_accumulator.md): O21, O13, O14, O15, O16, O17, O18, O19. -/

namespace Sys2Proof.Machine

open Sys2Proof.Claims

/-- Settles O21: each form's address, written out on numbers, is the one its arm stores to. -/
theorem everyStoreFormCompletes : Obligations.EveryStoreFormCompletes := fun s d w =>
  ⟨execStores_staZeroPage s d, execStores_staZeroPageX s d, execStores_staAbsolute s w, execStores_staAbsoluteX s w,
    execStores_staAbsoluteY s w, execStores_staIndirectX s d, execStores_staIndirectY s d⟩

/-- Settles O13: the row of 0x85 is STA Zero Page, and its operand is the byte after the opcode. -/
theorem staZeroPageStep : Obligations.StaZeroPageStep := fun s hat =>
  stepStores_at_opcode hat rfl (execStores_staZeroPage s _)

/-- Settles O14: the row of 0x95 is STA Zero Page,X. -/
theorem staZeroPageXStep : Obligations.StaZeroPageXStep := fun s hat =>
  stepStores_at_opcode hat rfl (execStores_staZeroPageX s _)

/-- Settles O15: the row of 0x8D is STA Absolute, and its operand is the word of the two bytes after the opcode. -/
theorem staAbsoluteStep : Obligations.StaAbsoluteStep := by
  intro s hat
  rw [operandWord_eq_toNat]
  exact stepStores_at_opcode hat rfl (execStores_staAbsolute s _)

/-- Settles O16: the row of 0x9D is STA Absolute,X. -/
theorem staAbsoluteXStep : Obligations.StaAbsoluteXStep := by
  intro s hat
  rw [operandWord_eq_toNat]
  exact stepStores_at_opcode hat rfl (execStores_staAbsoluteX s _)

/-- Settles O17: the row of 0x99 is STA Absolute,Y. -/
theorem staAbsoluteYStep : Obligations.StaAbsoluteYStep := by
  intro s hat
  rw [operandWord_eq_toNat]
  exact stepStores_at_opcode hat rfl (execStores_staAbsoluteY s _)

/-- Settles O18: the row of 0x81 is STA Indexed-Indirect (X). -/
theorem staIndirectXStep : Obligations.StaIndirectXStep := fun s hat =>
  stepStores_at_opcode hat rfl (execStores_staIndirectX s _)

/-- Settles O19: the row of 0x91 is STA Indirect-Indexed (Y). -/
theorem staIndirectYStep : Obligations.StaIndirectYStep := fun s hat =>
  stepStores_at_opcode hat rfl (execStores_staIndirectY s _)

end Sys2Proof.Machine
end

section
/-! The statements about the flag update (44_flag_update.md): O25, O26, O27. -/

namespace Sys2Proof.Machine

/-! ### The bits of `SetZN` (R119) -/

theorem byte_beq_zero_eq_decide (v : Byte) : (v == 0) = decide (v.toNat = 0) := by
  rw [Bool.eq_iff_iff]
  simp [BitVec.toNat_eq]

theorem setZN_getLsbD {c : Config} (h : c.zBit ≠ c.nBit) (v p : Byte) (n : Fin 8) :
    (setZN c v p).getLsbD n = if n = c.zBit then v == 0 else if n = c.nBit then v.msb else p.getLsbD n := by
  split
  case isTrue hz => rw [hz, setZN_getLsbD_zBit h]
  case isFalse hz =>
    split
    case isTrue hn => rw [hn, setZN_getLsbD_nBit]
    case isFalse hn => exact setZN_getLsbD_other c v p n.isLt (Fin.val_ne_of_ne hz) (Fin.val_ne_of_ne hn)

/-! ### The single expression of R119

It clears both places at once and then ORs the two shifted flags in, where `setZN` forces one place after the other. -/

/-- A flag moved to place `i` is seen at place `i` alone. -/
theorem ofBool_shiftLeft_getLsbD (b : Bool) (i n : Fin 8) :
    ((BitVec.ofBool b).setWidth 8 <<< i.val).getLsbD n = (decide (n = i) && b) := by
  revert b i n
  decide

theorem one_shiftLeft_getLsbD (i n : Fin 8) : (1#8 <<< i.val).getLsbD n = decide (n = i) := by
  simpa using ofBool_shiftLeft_getLsbD true i n

theorem ite_eq_zero_eq_ofBool (v : Byte) : (if v = 0 then 1#8 else 0#8) = (BitVec.ofBool (v == 0)).setWidth 8 := by
  by_cases hv : v = 0
  · rw [if_pos hv, beq_iff_eq.mpr hv]; rfl
  · rw [if_neg hv, beq_eq_false_iff_ne.mpr hv]; rfl

theorem ushiftRight_seven_eq_ofBool_msb (v : Byte) : v >>> 7 = (BitVec.ofBool v.msb).setWidth 8 := by
  revert v
  decide

theorem setZN_eq_expression {c : Config} (h : c.zBit ≠ c.nBit) (v p : Byte) :
    setZN c v p =
      (p &&& ~~~((1#8 <<< c.zBit.val) ||| (1#8 <<< c.nBit.val))) ||| ((if v = 0 then 1#8 else 0#8) <<< c.zBit.val) |||
        ((v >>> 7) <<< c.nBit.val) := by
  rw [ite_eq_zero_eq_ofBool, ushiftRight_seven_eq_ofBool_msb]
  refine BitVec.eq_of_getLsbD_eq fun n h8 => ?_
  lift n to Fin 8 using h8
  simp only [setZN_getLsbD h, BitVec.getLsbD_or, BitVec.getLsbD_and, BitVec.getLsbD_not, ofBool_shiftLeft_getLsbD,
    one_shiftLeft_getLsbD]
  by_cases hz : n = c.zBit
  · simp [hz, h]
  by_cases hn : n = c.nBit
  · simp [hn, h.symm]
  · simp [hz, hn]

/-- Settles O25: bit by bit, and from the bits the single expression. -/
theorem setZNWritesTwoBits : Obligations.SetZNWritesTwoBits := by
  refine fun c v p h => ⟨fun n => ?_, setZN_eq_expression h v p⟩
  rw [setZN_getLsbD h, byte_beq_zero_eq_decide, BitVec.msb_eq_decide]

/-! ### Forced, not toggled (R120, R121) -/

/-- Whatever the old status byte was, also where `Z_BIT` and `N_BIT` are one place and Negative is written last. -/
theorem setZN_getLsbD_zBit_congr (c : Config) (v p q : Byte) :
    (setZN c v p).getLsbD c.zBit = (setZN c v q).getLsbD c.zBit := by
  by_cases h : c.zBit = c.nBit
  · rw [h, setZN_getLsbD_nBit, setZN_getLsbD_nBit]
  · rw [setZN_getLsbD_zBit h, setZN_getLsbD_zBit h]

theorem setZN_getLsbD_nBit_congr (c : Config) (v p q : Byte) :
    (setZN c v p).getLsbD c.nBit = (setZN c v q).getLsbD c.nBit := by
  rw [setZN_getLsbD_nBit, setZN_getLsbD_nBit]

/-- The two forced bits do not see the first application, and the second leaves the other six as the first did. -/
theorem setZN_idem (c : Config) (v p : Byte) : setZN c v (setZN c v p) = setZN c v p := by
  refine BitVec.eq_of_getLsbD_eq fun n h8 => ?_
  by_cases hz : n = c.zBit.val
  · rw [hz]; exact setZN_getLsbD_zBit_congr c v _ p
  by_cases hn : n = c.nBit.val
  · rw [hn]; exact setZN_getLsbD_nBit_congr c v _ p
  exact setZN_getLsbD_other c v _ h8 hz hn

/-- Settles O26: the forced bits are functions of the value, from which twice is once. -/
theorem setZNForcesAndIsIdempotent : Obligations.SetZNForcesAndIsIdempotent := fun c v p q =>
  ⟨setZN_getLsbD_zBit_congr c v p q, setZN_getLsbD_nBit_congr c v p q, setZN_idem c v p⟩

/-! ### The outcome table (R122) -/

/-- A launch with every bit of P set shows both flags, wherever the configuration puts them (R34). -/
theorem launch_allOnes_flags (c : Config) (mem : Memory) (q : Presence) :
    (State.launch ⟨0, 0, 0, 0, BitVec.allOnes 8⟩ mem q).zeroFlag c = true ∧
    (State.launch ⟨0, 0, 0, 0, BitVec.allOnes 8⟩ mem q).negativeFlag c = true := by
  constructor <;> exact (BitVec.getLsbD_allOnes).trans (decide_eq_true (Fin.isLt _))

/-- Settles O27: each row of the table is a comparison of the value's number with 0 and with 128. -/
theorem setZNOutcomeTable : Obligations.SetZNOutcomeTable := by
  refine ⟨fun c v p h => ?_, fun c mem q => ⟨_, launch_allOnes_flags c mem q⟩⟩
  simp only [setZN_getLsbD_zBit h, setZN_getLsbD_nBit, byte_beq_zero_eq_decide, BitVec.msb_eq_decide, decide_eq_true_eq,
    decide_eq_false_iff_not]
  omega

end Sys2Proof.Machine
end

section
/-! SUPPORT. The engine's completed load and store under any configuration, and what its step can do, as one relation with a
constructor per outcome (40_engine.md R73 to R76, 60_exceptions.md R140). -/

namespace Sys2Proof.Machine

open Sys2Proof.Claims

/-! ### A completed load (R100, R119) -/

/-- The load of `v` by an instruction of `len` bytes, with the flags where the configuration puts them. -/
def State.loadWith (c : Config) (s : State) (len : Nat) (v : Byte) : State :=
  ({ s.advancePc len with a := v } : State).updateZN c v

/-- The engine's completed load is the claims', wherever the two flags are. -/
theorem State.loads_loadWith {c : Config} (h : c.zBit ≠ c.nBit) (s : State) (len : Nat) (v : Byte) :
    Loads c s (s.loadWith c len v) len v := by
  have zero : (s.loadWith c len v).zeroFlag c = decide (v.toNat = 0) :=
    (setZN_getLsbD_zBit h v s.p).trans (byte_beq_zero_eq_decide v)
  have negative : (s.loadWith c len v).negativeFlag c = decide (128 ≤ v.toNat) :=
    (setZN_getLsbD_nBit c v s.p).trans (BitVec.msb_eq_decide v)
  exact ⟨rfl, zero, negative, fun i h8 hz hn => setZN_getLsbD_other c v s.p h8 hz hn, by simp [State.loadWith],
    rfl, rfl, rfl, fun _ => rfl, fun _ => rfl, rfl, rfl⟩

/-- A mode that resolves to a value makes the dispatch of LDA a completed load of it. -/
theorem State.dispatch_lda_eq_loadWith {c : Config} {s : State} {m : Mode} {v : Byte} (hacc : accepts .lda m = true)
    (hv : ((s.advancePc 1).resolve c m .value).1 = .value v) :
    s.dispatch c ⟨.lda, m⟩ = s.loadWith c (1 + m.operandBytes) v := by
  simp only [State.dispatch, hacc, if_true, Operation.kind, hv, State.resolve_state, State.advancePc_advancePc, State.execute]
  rfl

/-! ### A completed store (R38, R110) -/

/-- The store of A at `ea` by an instruction of `len` bytes, marking `ea` present if the configuration says so. -/
def State.storeWith (c : Config) (s : State) (len : Nat) (ea : Addr) : State :=
  (s.advancePc len).writeByte c ea s.a

/-- `PRESENT_ON_STORE` is all of the configuration a store depends on. -/
theorem State.storeWith_eq_storeAccumulator {c : Config} (hmark : c.presentOnStore = true) (s : State) (len : Nat) (ea : Addr) :
    s.storeWith c len ea = s.storeAccumulator len ea := by
  simp only [State.storeWith, State.writeByte, hmark]
  rfl

/-- A mode that resolves to an address makes the dispatch of STA a completed store there. -/
theorem State.dispatch_sta_eq_storeWith {c : Config} {s : State} {m : Mode} {ea : Addr} (hacc : accepts .sta m = true)
    (hea : ((s.advancePc 1).resolve c m .address).1 = .address ea) :
    s.dispatch c ⟨.sta, m⟩ = s.storeWith c (1 + m.operandBytes) ea := by
  obtain ⟨hop, -⟩ | ⟨-, ea', hea', he⟩ := State.dispatch_cases c s ⟨.sta, m⟩ hacc
  · cases hop
  · obtain rfl : ea = ea' := by simpa using hea.symm.trans hea'
    exact he

/-! ### The outcomes of a step (R140) -/

/-- The next states of `s` under `c`: a halt (R69), either fault (R132, R133), a completed load (R100) or store (R110). -/
inductive EngineEffect (c : Config) (s : State) : State → Prop
  | halt (absent : s.isPresent s.pc = false) : EngineEffect c s s.halt
  | unknownOpcode (present : s.isPresent s.pc = true) (unknown : c.desc (s.readByte s.pc) = none) :
      EngineEffect c s (s.takeFault (.unknownOpcode (s.readByte s.pc)))
  | unsupportedMode (op : Operation) (mode : Mode) (present : s.isPresent s.pc = true)
      (selected : c.desc (s.readByte s.pc) = some ⟨op, mode⟩) (unaccepted : accepts op mode = false) :
      EngineEffect c s (s.takeFault (.unsupportedAddressingMode op mode))
  | load (len : Nat) (v : Byte) : EngineEffect c s (s.loadWith c len v)
  | store (len : Nat) (ea : Addr) : EngineEffect c s (s.storeWith c len ea)

theorem stepWith_running {c : Config} {s t : State} (h : stepWith c s = .next t) : s.run = .running := (stepWith_cases h).1

theorem stepWith_effect {c : Config} {s t : State} (h : stepWith c s = .next t) : EngineEffect c s t := by
  obtain ⟨-, ⟨hp, rfl⟩ | ⟨hp, hdesc, rfl⟩ | ⟨d, hp, hdesc, hacc, rfl⟩ | ⟨d, -, -, hacc, rfl⟩⟩ := stepWith_cases h
  · exact .halt hp
  · exact .unknownOpcode hp hdesc
  · exact .unsupportedMode d.op d.mode hp hdesc hacc
  · obtain ⟨-, v, he⟩ | ⟨-, ea, -, he⟩ := State.dispatch_cases c s d hacc <;> rw [he]
    · exact .load _ v
    · exact .store _ ea

/-- A running machine at a present byte with a descriptor dispatches it (R71 to R76). -/
theorem stepWith_eq_dispatch {c : Config} {s : State} {d : Descriptor} (hrun : s.run = .running)
    (hp : s.isPresent s.pc = true) (hdesc : c.desc (s.readByte s.pc) = some d) :
    stepWith c s = .next (s.dispatch c d) := by
  simp [stepWith, hrun, hp, hdesc]

/-! ### What every step of the engine keeps (R38, R130, R133, R135) -/

/-- The record of an unsupported mode is the descriptor of the present byte at PC. -/
theorem State.endInv_takeFault_unsupportedMode {c : Config} {s : State} {op : Operation} {mode : Mode}
    (hp : s.isPresent s.pc = true) (hdesc : c.desc (s.readByte s.pc) = some ⟨op, mode⟩) (hacc : accepts op mode = false) :
    (s.takeFault (.unsupportedAddressingMode op mode)).endInv c = true := by
  simp [State.endInv, hp, hdesc, hacc]

/-- A halt and the two faults record what ended the run; an instruction leaves the machine RUNNING without a record. -/
theorem stepWith_keeps_endInv {c : Config} {s t : State} (h : stepWith c s = .next t) (hend : s.endInv c = true) :
    t.endInv c = true := by
  have hrun := stepWith_running h
  have hfault : s.fault = none := (State.endInv_running hrun).mp hend
  cases stepWith_effect h with
  | halt absent => exact State.endInv_halt absent hfault
  | unknownOpcode present unknown => exact State.endInv_takeFault_unknownOpcode present unknown
  | unsupportedMode op mode present selected unaccepted =>
    exact State.endInv_takeFault_unsupportedMode present selected unaccepted
  | load len v => exact (State.endInv_running (s := s.loadWith c len v) hrun).mpr hfault
  | store len ea => exact (State.endInv_running (s := s.storeWith c len ea) hrun).mpr hfault

/-- A store keeps both planes canonical, whether it marks or not; nothing else writes them. -/
theorem stepWith_keeps_planesWf {c : Config} {s t : State} (h : stepWith c s = .next t) (hwf : s.planesWf = true) :
    t.planesWf = true := by
  cases stepWith_effect h with
  | store len ea =>
    exact Bool.and_eq_true_iff.mpr ((s.advancePc len).writeByte_wf c ea s.a (Bool.and_eq_true_iff.mp hwf))
  | halt | unknownOpcode | unsupportedMode | load => exact hwf

/-- A store that marks leaves its byte at a present address; nothing else writes memory. -/
theorem stepWith_keeps_memoryInv {c : Config} {s t : State} (hmark : c.presentOnStore = true) (h : stepWith c s = .next t)
    (hmem : s.memoryInv = true) : t.memoryInv = true := by
  cases stepWith_effect h with
  | store len ea =>
    rw [State.storeWith_eq_storeAccumulator hmark]
    exact launchMemoryOk_write_mark ea s.a hmem
  | halt | unknownOpcode | unsupportedMode | load => exact hmem

end Sys2Proof.Machine
end

section
/-! The statements about the engine under other configurations (45_extension_contract.md): O55, O45. -/

namespace Sys2Proof.Machine

open Sys2Proof.Claims

/-- Settles O55: each conjunct of the invariant is kept by itself, and only absent addresses reading 0 needs the mark. -/
theorem everyEngineStepKeepsTheInvariant : Obligations.EveryEngineStepKeepsTheInvariant := by
  refine fun c s t h => ⟨fun hmark hinv => ?_, fun hwf hend => ⟨stepWith_keeps_planesWf h hwf, stepWith_keeps_endInv h hend⟩⟩
  obtain ⟨hmem, hend⟩ := Bool.and_eq_true_iff.mp hinv
  exact Bool.and_eq_true_iff.mpr ⟨stepWith_keeps_memoryInv hmark h hmem, stepWith_keeps_endInv h hend⟩

/-- Settles O45: the mode resolves to `d + Y` within page 0 or to the byte there, and the operation completes with it. -/
theorem zeroPageYUnderAnotherTable : Obligations.ZeroPageYUnderAnotherTable := by
  intro c s hbits hmark hrun hp
  rw [addrOf_byte_add_index, operandByte_eq]
  refine ⟨fun hdesc => ⟨_, stepWith_eq_dispatch hrun hp hdesc, ?load⟩,
    fun hdesc => ⟨_, stepWith_eq_dispatch hrun hp hdesc, ?store⟩⟩
  case load =>
    rw [State.dispatch_lda_eq_loadWith rfl rfl]
    exact s.loads_loadWith hbits 2 _
  case store =>
    rw [State.dispatch_sta_eq_storeWith rfl rfl, State.storeWith_eq_storeAccumulator hmark]
    exact s.stores_storeAccumulator 2 _

end Sys2Proof.Machine
end

section
/-! The statement about the machine's launch (70_reset_and_hazards.md): O53. -/

namespace Sys2Proof.Machine

/-- A launch state is RUNNING without a record (R149), so that its memory alone decides the invariant (R151). -/
theorem State.inv_launch (c : Config) (r : LaunchRegs) (mem : Memory) (q : Presence) :
    (State.launch r mem q).Inv c = true ↔ launchMemoryOk mem q = true := by
  have hend : (State.launch r mem q).endInv c = true := (State.endInv_running rfl).mpr rfl
  exact Bool.and_eq_true_iff.trans (and_iff_left hend)

/-- The empty planes are a launch memory (R151). -/
theorem launchMemoryOk_empty : launchMemoryOk [] [] = true := rfl

/-- Settles O53: the launch memory decides the invariant, and the reset state is the launch of the empty planes. -/
theorem invariantHoldsAtLaunch : Obligations.InvariantHoldsAtLaunch := by
  refine ⟨?reset, fun c r mem q => (State.inv_launch c r mem q).mpr⟩
  case reset =>
    rw [State.reset_eq_launch]
    exact (State.inv_launch _ _ _ _).mpr launchMemoryOk_empty

end Sys2Proof.Machine
end

section
/-! SUPPORT. What a running machine does at each test of a step, said for the engine under any configuration (40_engine.md R69 to
R76, 60_exceptions.md R140), and which pairs no operation accepts. -/

namespace Sys2Proof

/-! ### The pairs that fault when decoded (R98, R133) -/

theorem accepts_eq_false_iff (op : Operation) (m : Mode) : accepts op m = false ↔
    (op = .sta ∧ m = .immediate) ∨ (op = .sta ∧ m = .implicit) ∨ (op = .lda ∧ m = .implicit) := by
  rw [← Bool.not_eq_true]
  cases op with
  | lda => simp [accepts_lda_iff]
  | sta => simp [accepts_sta_iff, imp_iff_not_or, or_comm]

theorem ne_implicit_of_accepts {op : Operation} {m : Mode} (h : accepts op m = true) : m ≠ .implicit := by
  cases op with
  | lda => exact (accepts_lda_iff m).mp h
  | sta => exact ((accepts_sta_iff m).mp h).1

/-- The default table has no row that faults as an unsupported mode. -/
theorem accepts_of_standard_desc {b : Byte} {d : Descriptor} (h : Config.standard.desc b = some d) :
    accepts d.op d.mode = true := by
  obtain ⟨i, rfl⟩ := exists_instr_of_standard_desc h
  exact accepts_instr i

end Sys2Proof

namespace Sys2Proof.Machine

/-! ### The tests of a step (R140) -/

theorem stepWith_of_absentPc {c : Config} {s : State} (hrun : s.run = .running) (hp : s.isPresent s.pc = false) :
    stepWith c s = .next s.halt := by
  simp [stepWith, hrun, hp]

theorem stepWith_of_noDescriptor {c : Config} {s : State} (hrun : s.run = .running) (hp : s.isPresent s.pc = true)
    (hdesc : c.desc (s.readByte s.pc) = none) :
    stepWith c s = .next (s.takeFault (.unknownOpcode (s.readByte s.pc))) := by
  simp [stepWith, hrun, hp, hdesc]

theorem State.dispatch_of_unaccepted {c : Config} (s : State) {d : Descriptor} (h : accepts d.op d.mode = false) :
    s.dispatch c d = s.takeFault (.unsupportedAddressingMode d.op d.mode) := by
  simp [State.dispatch, h]

theorem stepWith_of_unacceptedMode {c : Config} {s : State} {d : Descriptor} (hrun : s.run = .running)
    (hp : s.isPresent s.pc = true) (hdesc : c.desc (s.readByte s.pc) = some d) (hacc : accepts d.op d.mode = false) :
    stepWith c s = .next (s.takeFault (.unsupportedAddressingMode d.op d.mode)) := by
  rw [stepWith_eq_dispatch hrun hp hdesc, s.dispatch_of_unaccepted hacc]

/-- An accepted descriptor raises no fault (R98). -/
theorem State.dispatch_fault {c : Config} (s : State) {d : Descriptor} (h : accepts d.op d.mode = true) :
    (s.dispatch c d).fault = s.fault := by
  obtain ⟨-, v, he⟩ | ⟨-, ea, -, he⟩ := State.dispatch_cases c s d h <;> rw [he] <;> rfl

end Sys2Proof.Machine
end

section
/-! The statements about the halt and the two faults (40_engine.md R69, 60_exceptions.md): O43, O41, O38, O39, O40. -/

namespace Sys2Proof.Machine

open Sys2Proof.Claims

/-- Settles O43: one rule per test; an accepted descriptor leaves RUN and FAULT alone. -/
theorem testsOfAStepInOrder : Obligations.TestsOfAStepInOrder := fun c s hrun =>
  ⟨stepWith_of_absentPc hrun, stepWith_of_noDescriptor hrun, fun _ => stepWith_of_unacceptedMode hrun,
    fun d hp hdesc hacc => ⟨s.dispatch c d, stepWith_eq_dispatch hrun hp hdesc, (s.dispatch_pc_run hacc).2.trans hrun,
      s.dispatch_fault hacc⟩⟩

/-- Settles O41: of a step's outcomes only the two fault entries end FAULTED, each with its own record. -/
theorem faultEntryWritesTwoThings : Obligations.FaultEntryWritesTwoThings := by
  intro c s t h hfaulted
  have hrun := stepWith_running h
  cases stepWith_effect h with
  | halt => cases hfaulted
  | unknownOpcode => exact ⟨_, rfl, .inl rfl⟩
  | unsupportedMode op mode present selected => exact ⟨_, rfl, .inr ⟨⟨op, mode⟩, selected, rfl⟩⟩
  | load | store => cases hrun.symm.trans hfaulted

/-- Settles O38: the default machine is an engine, and the presence test comes first. -/
theorem absentPcHalts : Obligations.AbsentPcHalts := fun s hrun hp =>
  (stepIsTheEngineAtTheDefaults s).trans (stepWith_of_absentPc hrun hp)

/-- Settles O39: the byte at PC is the one recorded. -/
theorem unknownOpcodeFaults : Obligations.UnknownOpcodeFaults := by
  rintro s b ⟨hrun, hp, rfl⟩ hunknown
  exact step_of_unknownOpcode hrun hp hunknown

/-- Settles O40: the three pairs are those no operation accepts, and the default table's are all accepted. -/
theorem unsupportedModeFaults : Obligations.UnsupportedModeFaults := by
  refine ⟨fun c s op mode hrun hp hdesc hpair => ?faults, fun b d hdesc hpair => ?unselected⟩
  case faults => exact stepWith_of_unacceptedMode hrun hp hdesc ((accepts_eq_false_iff op mode).mpr hpair)
  case unselected =>
    have hunaccepted : accepts d.op d.mode = false := (accepts_eq_false_iff _ _).mpr hpair
    exact Bool.false_ne_true (hunaccepted.symm.trans (accepts_of_standard_desc hdesc))

end Sys2Proof.Machine
end

section
/-! SUPPORT. What an absent address reads as, which instruction a known opcode is, and where a pointer's high byte lies (20_memory.md
R27, R40; 30_encoding.md R56; 41_addressing.md R97). -/

namespace Sys2Proof.Machine

open Sys2Proof.Claims

/-! ### Absence (R27, R40) -/

/-- Every listed byte is present under the memory invariant, so an absent address is unlisted. -/
theorem State.readByte_of_absent {s : State} (hinv : s.memoryInv = true) {a : Addr} (ha : s.isPresent a = false) :
    s.readByte a = 0 := by
  by_contra hne
  obtain ⟨c, hc, hkey⟩ := Memory.lookup_mem (m := s.mem) (k := a.toNat) hne
  have hlisted : s.present.contains c.1 = true := List.all_eq_true.mp (Bool.and_eq_true_iff.mp hinv).2 c hc
  rw [hkey] at hlisted
  exact Bool.false_ne_true (ha.symm.trans hlisted)

theorem exists_fetchInstr_of_known {s : State} (h : s.readByte s.pc ∈ knownOpcodes) : ∃ i, s.fetchInstr = some i := by
  refine Option.ne_none_iff_exists'.mp fun hnone => ?_
  exact (opcodeRow_eq_none_iff _).mp (s.fetchInstr_eq_none.mp hnone) h

/-! ### The pointer read (R97) -/

/-- Below 0xFF the byte after a zero-page location is in page 0 under either value of `ZP_POINTER_WRAP`. -/
theorem pointerHighAddr_eq_of_le {p : Byte} (h : p.toNat ≤ 0xFE) (c : Config) : pointerHighAddr c p = addrOf (p.toNat + 1) := by
  have hsame : (p.toNat + 1) % 256 = p.toNat + 1 := by omega
  rw [← addrOf_pointerHigh, hsame, ite_self]

end Sys2Proof.Machine
end

section
/-! The statements about absence, a byte write, the pointer read, and the two modes without an address (20_memory.md,
41_addressing.md): O30, O36, O29, O32. -/

namespace Sys2Proof.Machine

open Sys2Proof.Claims

/-- Settles O30: what is absent is unlisted, and a known opcode at a present PC runs an instruction, which writes neither RUN nor
FAULT. -/
theorem absentReadsZeroAndNeverHalts : Obligations.AbsentReadsZeroAndNeverHalts := by
  refine ⟨fun s a hinv => s.readByte_of_absent hinv, fun s hrun hp hknown => ?_⟩
  obtain ⟨i, hfetch⟩ := exists_fetchInstr_of_known hknown
  obtain ⟨t, hexec, -⟩ := exists_exec_next i s
  obtain ⟨-, -, -, hrun', hfault, -⟩ := everyInstructionsFrame i s t hexec
  exact ⟨t, (step_eq_exec hrun hp hfetch).trans hexec, hrun'.trans hrun, hfault⟩

/-- Settles O36: the claims' pointer is the machine's, and only the high byte's address depends on the configuration. -/
theorem pointerReadUnderBothReadings : Obligations.PointerReadUnderBothReadings := by
  refine fun c s p => ⟨(pointerNat_eq_pointerRead c s p).symm, fun c' hp => ?agree, fun hwrap => ?next, fun hwrap => ?wrapped⟩
  case agree => rw [State.pointerRead, State.pointerRead, pointerHighAddr_eq_of_le hp, pointerHighAddr_eq_of_le hp]
  case next | wrapped =>
    rw [← pointerNat_eq_pointerRead, pointerNat, hwrap]
    rfl

/-- Settles O29, by the read and the presence of any address after a write. -/
theorem writeByteStoresAndMarks : Obligations.WriteByteStoresAndMarks := by
  refine fun c s a v => ⟨?stored, fun b hb => ⟨?otherByte, ?otherBit⟩, fun hmark => ?marked, fun hmark => ?unmarked, rfl⟩
  case stored => rw [State.writeByte_readByte, if_pos rfl]
  case otherByte => rw [State.writeByte_readByte, if_neg hb]
  case otherBit => simp [State.writeByte_isPresent, hb]
  case marked | unmarked => simp [State.writeByte_isPresent, hmark]

/-- Settles O32: Immediate is one fetch, Implicit is none, and an accepted mode is not Implicit. -/
theorem immediateAndImplicitResolve : Obligations.ImmediateAndImplicitResolve := by
  refine ⟨fun c s k => ⟨?immediate, rfl⟩, rfl, rfl, rfl, rfl, fun s hinv hp => ?absent, fun b d hdesc => ?unselected⟩
  case immediate =>
    rw [addrOf_toNat_add]
    rfl
  case absent => exact congrArg Resolved.value (s.readByte_of_absent hinv hp)
  case unselected => exact ne_implicit_of_accepts (accepts_of_standard_desc hdesc)

end Sys2Proof.Machine
end

section
/-! SUPPORT. The bytes the host stores before a run: what reads back, what is marked and what is left alone (70_reset_and_hazards.md
R150, R151). An address is placed by its distance from the first one, so that the rules hold across the top of memory. -/

namespace Sys2Proof.Machine

open Sys2Proof.Claims

/-- From one address further up, every other address is one nearer. -/
theorem addr_sub_toNat_of_ne {a b : Addr} (h : b ≠ a) : (b - a).toNat = (b - (a + 1)).toNat + 1 := by
  have hne : b.toNat ≠ a.toNat := fun e => h (BitVec.eq_of_toNat_eq e)
  bv_omega

theorem State.prestoreFrom_readByte {vs : List Byte} (hlen : vs.length ≤ 65536) (s : State) (a b : Addr) :
    (s.prestoreFrom a vs).readByte b = (vs[(b - a).toNat]?).getD (s.readByte b) := by
  induction vs generalizing s a with
  | nil => rfl
  | cons v vs ih =>
    have hvs : vs.length ≤ 65535 := Nat.le_of_succ_le_succ hlen
    rw [State.prestoreFrom, ih (by omega), State.prestore_readByte]
    by_cases hb : b = a
    · subst hb
      simp [List.getElem?_eq_none hvs]
    · simp [hb, addr_sub_toNat_of_ne hb]

theorem State.prestoreFrom_isPresent {vs : List Byte} (hlen : vs.length ≤ 65536) (s : State) (a b : Addr) :
    (s.prestoreFrom a vs).isPresent b = (decide ((b - a).toNat < vs.length) || s.isPresent b) := by
  induction vs generalizing s a with
  | nil => simp [State.prestoreFrom]
  | cons v vs ih =>
    rw [State.prestoreFrom, ih (Nat.le_of_succ_le hlen), State.prestore_isPresent]
    by_cases hb : b = a
    · simp [hb]
    · simp [hb, addr_sub_toNat_of_ne hb]

/-- Only the two memory planes are written. -/
theorem State.prestoreFrom_frame (s : State) (a : Addr) (vs : List Byte) :
    s.prestoreFrom a vs = { s with mem := (s.prestoreFrom a vs).mem, present := (s.prestoreFrom a vs).present } := by
  induction vs generalizing s a with
  | nil => rfl
  | cons v vs ih => exact ih (s.prestore a v) (a + 1)

theorem State.prestoreFrom_memoryInv {s : State} (hinv : s.memoryInv = true) (a : Addr) (vs : List Byte) :
    (s.prestoreFrom a vs).memoryInv = true := by
  induction vs generalizing s a with
  | nil => exact hinv
  | cons v vs ih => exact ih (s := s.prestore a v) (launchMemoryOk_write_mark a v hinv) (a + 1)

/-! ### The standard loader (R150) -/

theorem standardLaunch_of_fits {image : List Byte} (h : image.length ≤ 32768) (r : LaunchRegs) :
    standardLaunch r image = some ((State.launch r [] []).prestoreFrom loadBase image) :=
  if_pos (decide_eq_true h)

theorem standardLaunch_isSome_iff (r : LaunchRegs) (image : List Byte) :
    (standardLaunch r image).isSome = true ↔ image.length ≤ 32768 := by
  simp [standardLaunch, imageFits]

theorem addrOf_sub_loadBase_toNat {i : Nat} (h : i < 32768) : (addrOf (0x8000 + i) - loadBase).toNat = i := by
  have hsub : addrOf (loadBase.toNat + i) - loadBase = BitVec.ofNat 16 i := by
    rw [addrOf_toNat_add, BitVec.add_comm, BitVec.add_sub_cancel]
  exact (congrArg BitVec.toNat hsub).trans (Nat.mod_eq_of_lt (by omega))

/-- An address below the image or above it is further from `LOAD_BASE` than the image is long. -/
theorem length_le_sub_loadBase_toNat {n : Nat} (hn : n ≤ 32768) {a : Addr}
    (ha : a.toNat < 0x8000 ∨ 0x8000 + n ≤ a.toNat) : n ≤ (a - loadBase).toNat := by
  have hbase : loadBase = 0x8000#16 := rfl
  rw [hbase]
  bv_omega

end Sys2Proof.Machine
end

section
/-! The statements about launch and the host (70_reset_and_hazards.md, 10_state.md R33): O57, O56, O58. -/

namespace Sys2Proof.Machine

open Sys2Proof.Claims

/-- Settles O57: an image that fits does not reach the top of memory, so a distance from `LOAD_BASE` is an index of the image or
outside it. -/
theorem standardLoaderPlacesTheImage : Obligations.StandardLoaderPlacesTheImage := by
  refine fun r image => ⟨(standardLaunch_isSome_iff r image).symm, fun s hs => ?_⟩
  have hfits : image.length ≤ 32768 := (standardLaunch_isSome_iff r image).mp (hs ▸ rfl)
  have hlen : image.length ≤ 65536 := hfits.trans (by decide)
  obtain rfl : (State.launch r [] []).prestoreFrom loadBase image = s :=
    Option.some.inj ((standardLaunch_of_fits hfits r).symm.trans hs)
  refine ⟨fun i hi => ?image, fun a ha => ?elsewhere, State.prestoreFrom_frame _ _ _,
    State.prestoreFrom_memoryInv (s := State.launch r [] []) launchMemoryOk_empty _ _⟩
  case image =>
    rw [State.prestoreFrom_readByte hlen, State.prestoreFrom_isPresent hlen, addrOf_sub_loadBase_toNat (hi.trans_le hfits)]
    simp [hi]
  case elsewhere =>
    have hfar : image.length ≤ (a - loadBase).toNat := length_le_sub_loadBase_toNat hfits ha
    rw [State.prestoreFrom_readByte hlen, State.prestoreFrom_isPresent hlen, List.getElem?_eq_none hfar,
      decide_eq_false hfar.not_gt]
    exact ⟨rfl, rfl⟩

/-- Settles O56: each field of a launch is given or fixed, and the reset state is the launch of the empty planes. -/
theorem launchState : Obligations.LaunchState :=
  ⟨fun _ _ _ => ⟨rfl, rfl, rfl, rfl, rfl, rfl, rfl, rfl, rfl, rfl⟩, ⟨_, State.reset_eq_launch⟩⟩

/-- Settles O58: RUN alone decides what the host sees. -/
theorem snapshotOnTerminationOnly : Obligations.SnapshotOnTerminationOnly := by
  refine fun s => ⟨fun hrun => ?running, fun hrun => ?halted, fun hrun => ?faulted⟩
  case running | halted | faulted =>
    simp [State.snapshot, State.inspectByte, hrun]

end Sys2Proof.Machine
end
